-- ==== Sys2Proof/Word.lean ====
section
/-! DEFINITION. The word and byte types (spec/00_scope.md R6, R7: `u32` and `u8`). -/

namespace Sys2Proof

/-- A `u32` (R7): addition and subtraction wrap modulo 2^32, shifts are logical (R8). -/
abbrev Word := BitVec 32

/-- A `u8`, one byte of the input buffer (R10, R40). -/
abbrev Byte := BitVec 8

/-- `zext_32(b)` of R9: a byte widened by zero high bits. -/
abbrev zext32 (b : Byte) : Word := BitVec.zeroExtend 32 b

end Sys2Proof
end

