-- ==== Sys2Proof/Machine/Constants.lean ====
section
/-! DEFINITION. The block's numeric constants, each named once so that a correction touches one place (spec/00_scope.md R6,
D24). UNVERIFIED, unsafe (log 13): the spec says its literals are unaudited. The shift schedule is `schedule` of
Machine/Diffuser.lean. -/

namespace Sys2Proof.Machine

/-- SEED_AB, the initial A and B (R6). -/
def seedAB : Word := 0x9e3779b9#32

/-- SEED_C, the initial C: 3923095 (R6). -/
def seedC : Word := 0x003bdc97#32

/-- BLOCK_BYTES, the bytes of one main-loop block (R6). -/
def blockBytes : Nat := 12

end Sys2Proof.Machine
end

