-- ==== Sys2Proof/Machine/Diffuser.lean ====
section
/-! DEFINITION. The `3word_avalanche_diffuser` (spec/40_mixing.md R80 to R85): MIX from the row table of R81, and its inverse
UNMIX (R83). -/

namespace Sys2Proof.Machine

/-- The state triple (a, b, c) (R21), the diffuser's input and output (R82). -/
@[ext]
structure Triple where
  a : Word
  b : Word
  c : Word
  deriving DecidableEq, Repr

/-- Which accumulator a row or a tail byte goes to. -/
inductive Acc where
  | a | b | c
  deriving DecidableEq, Repr

/-- A logical shift by a constant (R8). -/
inductive Shift where
  /-- `>> n`. -/
  | right (n : Nat)
  /-- `<< n`. -/
  | left (n : Nat)
  deriving DecidableEq, Repr

/-- Vacated bits are zero on both sides (R8). -/
def Shift.apply : Shift → Word → Word
  | .right n, z => z >>> n
  | .left n, z => z <<< n

/-- One row of R81: its target x, and the shift of z. The two other words follow the target in the cycle a, b, c. -/
structure MixRow where
  target : Acc
  shift : Shift
  deriving DecidableEq, Repr

/-- The nine rows of R81 with the shift schedule of R6. -/
def schedule : List MixRow :=
  [ ⟨.a, .right 13⟩, ⟨.b, .left 8⟩, ⟨.c, .right 13⟩,
    ⟨.a, .right 12⟩, ⟨.b, .left 16⟩, ⟨.c, .right 5⟩,
    ⟨.a, .right 3⟩, ⟨.b, .left 10⟩, ⟨.c, .right 15⟩ ]

/-- R81: `x <- x - y; x <- x - z; x <- x ^ shift(z)`. -/
def rowValue (sh : Shift) (x y z : Word) : Word := (x - y - z) ^^^ sh.apply z

/-- R83: what undoes `rowValue`, `x <- x ^ shift(z); x <- x + z; x <- x + y`. -/
def unrowValue (sh : Shift) (x y z : Word) : Word := (x ^^^ sh.apply z) + z + y

/-- One row acts on its target alone (R81). -/
def applyRow (t : Triple) (r : MixRow) : Triple :=
  match r.target with
  | .a => { t with a := rowValue r.shift t.a t.b t.c }
  | .b => { t with b := rowValue r.shift t.b t.c t.a }
  | .c => { t with c := rowValue r.shift t.c t.a t.b }

/-- One row undone (R83). -/
def undoRow (t : Triple) (r : MixRow) : Triple :=
  match r.target with
  | .a => { t with a := unrowValue r.shift t.a t.b t.c }
  | .b => { t with b := unrowValue r.shift t.b t.c t.a }
  | .c => { t with c := unrowValue r.shift t.c t.a t.b }

/-- MIX (R80): the nine rows in order, each on the values the row before it left. -/
def mix (t : Triple) : Triple := schedule.foldl applyRow t

/-- UNMIX (R83): the rows backwards, each undoing its own row. No command computes it. -/
def unmix (t : Triple) : Triple := schedule.reverse.foldl undoRow t

/-- `x` added to one accumulator, modulo 2^32 (R7). -/
def Triple.addTo (t : Triple) (r : Acc) (x : Word) : Triple :=
  match r with
  | .a => { t with a := t.a + x }
  | .b => { t with b := t.b + x }
  | .c => { t with c := t.c + x }

/-- The seeds of a hash (R6, R90). -/
def seeds : Triple := { a := seedAB, b := seedAB, c := seedC }

end Sys2Proof.Machine
end

