-- ==== Sys2Proof/Config.lean ====
section
/-! DEFINITION. The parameters the spec leaves OPEN (spec/00_scope.md R6; 92_eei_decisions.md D4, D8; 93 U14). -/

namespace Sys2Proof

/-- A buffer size: R6 bounds `BUF_SIZE` by 2^32. -/
abbrev BufSize := Fin 4294967297

/-- The block's open parameters. A value of this type is carried in `Machine.State`, so that every statement about a state
is a statement about every choice of them (log 5). -/
structure Config where
  /-- `BUF_SIZE`: how many bytes IBUF has (R6, R40, D8). -/
  bufSize : BufSize
  /-- `REG_BASE`: the platform address of the register window's offset 0 (R6, R42, D4). -/
  regBase : Nat
  /-- The platform address of IBUF's index 0 (R50, U14). -/
  ibufBase : Nat
  deriving DecidableEq, Repr

/-- The parameters State.reset carries. DESIGN CHOICE (log 5), unsafe: the spec leaves all three open. 16 is the BUF_SIZE its
test vectors use where they say nothing else (95_test_vectors.md). -/
def Config.atReset : Config := { bufSize := 16, regBase := 0, ibufBase := 0 }

end Sys2Proof
end

