-- ==== Sys2Proof/Syntax.lean ====
section
/-! DEFINITION. The command set: one constructor per row of spec/opcode_table.json (spec/30_encoding.md R62). -/

namespace Sys2Proof

/-- The five commands (R62). No command has an immediate, a register field or a mode field (R61), so no constructor has an
argument: every operand is implicit. -/
inductive Instr where
  /-- INIT: load the seeds and latch LEN (41_body.md R90). -/
  | init
  /-- BLOCK: fold one 12-byte block and mix (41_body.md R92). -/
  | block
  /-- TAIL: fold the length and the last 0 to 11 bytes (42_tail.md R100). -/
  | tail
  /-- FINAL: mix once more and publish the digest (43_final.md R110). -/
  | final
  /-- RUN: the whole hash of LEN bytes (43_final.md R112). -/
  | run
  deriving DecidableEq, Repr

end Sys2Proof
end

