-- ==== Sys2Proof/WellFormed.lean ====
section
/-! DEFINITION. What a well-formed command is: the format CMD32 and its checks (spec/30_encoding.md R60, R63, R64). -/

namespace Sys2Proof

/-- A CMD word cut into the two fields of the one format `CMD32` (R60). -/
structure Cmd32 where
  /-- OP, bits [3:0]. -/
  op : BitVec 4
  /-- RSV, bits [31:4], which must be 0. -/
  rsv : BitVec 28
  deriving DecidableEq, Repr

/-- R60: "reserved; must be 0". -/
def Cmd32.rsvOk (c : Cmd32) : Bool := c.rsv == 0#28

/-- R62: OP 0x0 and OP 0x6 to 0xF are reserved. -/
def Cmd32.opOk (c : Cmd32) : Bool := decide (1 ≤ c.op.toNat) && decide (c.op.toNat ≤ 5)

/-- The words of R63 that are commands. -/
def Cmd32.wf (c : Cmd32) : Bool := c.rsvOk && c.opOk

/-- Well-formedness of a command as syntax. R61 gives no command an operand, so there is nothing a term of `Instr` could get
wrong: each of the five is well formed. -/
def Instr.wf : Instr → Bool
  | .init => true
  | .block => true
  | .tail => true
  | .final => true
  | .run => true

end Sys2Proof
end

