-- ==== Sys2Proof/Decode.lean ====
section
/-! DEFINITION. Decoding a CMD word, total and rejecting by name, then the encoder (spec/30_encoding.md R60 to R65, R68),
and the byte lanes a host bus carries a word in (20_memory.md R44). -/

namespace Sys2Proof

/-! ## Words, lanes and fields -/

/-- Byte lane `j` of a word carries bits `[8j+7:8j]` (R44, D6). -/
def lane (w : Word) (j : Nat) : Byte := BitVec.extractLsb' (8 * j) 8 w

/-- The four lanes of a word, lane 0 first. -/
def bytesOfWord (w : Word) : List Byte := [lane w 0, lane w 1, lane w 2, lane w 3]

/-- The word whose lanes are the four bytes, lane 0 first. -/
def wordOfBytes (b0 b1 b2 b3 : Byte) : Word :=
  zext32 b0 ||| zext32 b1 <<< 8 ||| zext32 b2 <<< 16 ||| zext32 b3 <<< 24

/-- The two fields of a word (R60): OP is `w[3:0]`, RSV is `w[31:4]`. -/
def Cmd32.ofWord (w : Word) : Cmd32 :=
  { op := BitVec.extractLsb' 0 4 w, rsv := BitVec.extractLsb' 4 28 w }

/-- The word the two fields make (R60). -/
def Cmd32.toWord (c : Cmd32) : Word := c.rsv ++ c.op

/-! ## Decoding -/

/-- Why a word is no command (R63, R64). -/
inductive DecodeReject where
  /-- Bits [31:4] are not all 0 (R60, R64). -/
  | reservedBits
  /-- OP is 0x0 or 0x6 to 0xF (R62, R64). -/
  | reservedOp
  /-- Fewer than four bytes: a command is one 32-bit word and has no shorter form (R60, R65). -/
  | tooShort
  deriving DecidableEq, Repr

/-- R62's map from OP to command. -/
def opcodeOf (op : BitVec 4) : Except DecodeReject Instr :=
  if op = 0x1#4 then .ok .init
  else if op = 0x2#4 then .ok .block
  else if op = 0x3#4 then .ok .tail
  else if op = 0x4#4 then .ok .final
  else if op = 0x5#4 then .ok .run
  else .error .reservedOp

/-- R63. Decoding reads only the word, never the phase. -/
def decode (w : Word) : Except DecodeReject Instr :=
  if (Cmd32.ofWord w).rsvOk then opcodeOf (Cmd32.ofWord w).op else .error .reservedBits

/-- Decoding from the bytes of the bus, lane 0 first (R44): the command and the bytes after it. -/
def decodeBytes : List Byte → Except DecodeReject (Instr × List Byte)
  | b0 :: b1 :: b2 :: b3 :: rest =>
    match decode (wordOfBytes b0 b1 b2 b3) with
    | .ok i => .ok (i, rest)
    | .error e => .error e
  | _ => .error .tooShort

/-! ## Encoding -/

/-- The OP value of each command (R62). -/
def opOf : Instr → BitVec 4
  | .init => 0x1#4
  | .block => 0x2#4
  | .tail => 0x3#4
  | .final => 0x4#4
  | .run => 0x5#4

/-- The CMD word of a command (R62, R68): OP in bits [3:0], RSV zero. -/
def encode (i : Instr) : Word := Cmd32.toWord { op := opOf i, rsv := 0#28 }

/-! ## The opcode table's words -/

/-- The 32-bit word of a table row given `nbits` bits, every bit above `nbits` zero. -/
def tableWord (nbits w : Nat) : Word := BitVec.ofNat 32 (w % 2 ^ nbits)

/-- The command the decoder reads from a row of spec/opcode_table.json. Every row is one 32-bit word (R60, R65); a word of
more than 32 bits is none. -/
def decodeTableWord (nbits w : Nat) : Option Instr :=
  if nbits ≤ 32 then
    match decodeBytes (bytesOfWord (tableWord nbits w)) with
    | .ok (i, _) => some i
    | .error _ => none
  else none

/-- The mnemonic of a command, upper case (R66). -/
def mnemonic : Instr → String
  | .init => "INIT"
  | .block => "BLOCK"
  | .tail => "TAIL"
  | .final => "FINAL"
  | .run => "RUN"

end Sys2Proof
end

