-- ==== Sys2Proof/Machine/State.lean ====
section
/-! DEFINITION. The machine's state as plain data (spec/10_state.md R20), the reasons a step can stop, and the state after
reset (R37, R140). -/

namespace Sys2Proof.Machine

/-- STATUS.PHASE (R28): the five values the block produces. 5, 6 and 7 are reserved and never produced (U11; log 11). -/
inductive Phase where
  /-- 0: no hash started since reset. -/
  | idle
  /-- 1: initialized; BLOCK or TAIL may follow. -/
  | body
  /-- 2: tail folded in; FINAL may follow. -/
  | tailed
  /-- 3: DIGEST holds the hash of the last started hash. -/
  | done
  /-- 4: a command was refused; see ERR. -/
  | fault
  deriving DecidableEq, Repr

/-- STATUS.ERR (R29, R121): the four values the block produces. 4 to 15 are reserved and never produced (U11; log 11). -/
inductive Err where
  /-- 0: no fault. -/
  | none
  /-- 1: a CMD word that encodes no command (R123). -/
  | illegalCmd
  /-- 2: a command not legal in the current phase (R124). -/
  | sequence
  /-- 3: INIT or RUN with LEN > BUF_SIZE (R125). -/
  | bounds
  deriving DecidableEq, Repr

/-- The named registers of the window (20_memory.md R42). -/
inductive Reg where
  | cmd | len | status | digest | a | b | c | cursor | rem | klen
  deriving DecidableEq, Repr

/-- One step of the world outside the block: a host access (R53) or reset (R141). Addresses are platform addresses: the
register window lies at REG_BASE (R42), IBUF's index 0 at `ibufBase` (R50, U14; log 5). -/
inductive HostEvent where
  /-- The host writes `value` to the register window with an access of `bits` bits (R42, R46). -/
  | writeReg (bits : Nat) (addr : Nat) (value : Word)
  /-- The host reads the register window with an access of `bits` bits (R42, R46). -/
  | readReg (bits : Nat) (addr : Nat)
  /-- The host writes one byte of IBUF (R41, R55). -/
  | writeIbuf (addr : Nat) (value : Byte)
  /-- The host reads one byte of IBUF (R48, R53). -/
  | readIbuf (addr : Nat)
  /-- Reset (R140, R141). -/
  | reset
  deriving DecidableEq, Repr

/-- What a host read gives back (R136). -/
inductive Reply where
  /-- The word of a register read. -/
  | word (value : Word)
  /-- The byte of an IBUF read. -/
  | byte (value : Byte)
  deriving DecidableEq, Repr

/-- IBUF's contents: (index, byte) pairs in the canonical form `Memory.wf` of Machine/Ops.lean. -/
abbrev Memory := List Host.Cell

/-- Where a step stops with a fault of the MODEL. The block's own faults (ILLEGAL_CMD, SEQUENCE, BOUNDS) are none of these:
they are next states that set PHASE and ERR (R122). -/
inductive Fault where
  /-- Raised by BLOCK or TAIL when a byte it would read is not in IBUF: R125, "A model must not give a value to a read past the
  buffer". No state that keeps the invariant of R25 raises it. Safe (log 10). -/
  | ibufReadPastEnd
  /-- Raised by a host register access outside the 16 words of R42. Safe (log 7). -/
  | outsideWindow
  /-- Raised by a host IBUF access outside the BUF_SIZE bytes of R40. Safe (log 9). -/
  | outsideIbuf
  deriving DecidableEq, Repr

/-- Where a step has no meaning. -/
inductive Refusal where
  /-- Raised by exec for a command without a meaning yet; no command of this model is left so. Safe. -/
  | notModelled (mnemonic : String)
  /-- Raised by a host register access that is not 32 bits wide: R46, "A model refuses such an access". Safe (log 8). -/
  | notWordAccess
  /-- Raised by a host register access at an offset that is no multiple of 4: R46. Safe (log 8). -/
  | unalignedAccess
  deriving DecidableEq, Repr

/-- Everything the machine holds: the registers of R20, the host's IBUF (R40; log 1), the open parameters (R6; log 5), and
three fields of the model's own. -/
@[ext]
structure State where
  /-- A (R21). -/
  a : Word
  /-- B (R21). -/
  b : Word
  /-- C (R21). -/
  c : Word
  /-- KLEN, the latched length (R22). -/
  klen : Word
  /-- CURSOR, the index of the next unread byte (R23). -/
  cursor : Word
  /-- REM, the remaining-length counter (R24). -/
  rem : Word
  /-- DIGEST (R26). -/
  digest : Word
  /-- STATUS.PHASE (R28). -/
  phase : Phase
  /-- STATUS.ERR (R29). -/
  err : Err
  /-- LEN, written by the host (R31). -/
  len : Word
  /-- IBUF, the host's memory (R40; log 1). -/
  ibuf : Memory
  /-- BUF_SIZE, REG_BASE and IBUF's address (R6, U14; log 5); no step changes them. -/
  cfg : Config
  /-- The host accesses and resets still to come, oldest first (R53; log 2). -/
  pending : List HostEvent
  /-- What the host has read so far, newest first (R136; log 3). -/
  replies : List Reply
  /-- The sticky fault mark D13 asks of a model: some fault was raised, whatever ERR says now (log 4). -/
  faultMark : Bool
  deriving DecidableEq, Repr

/-- The machine right after reset: R37 gives every register; IBUF lists nothing (log 6), nothing is pending (log 2). -/
def State.reset : State where
  a := 0
  b := 0
  c := 0
  klen := 0
  cursor := 0
  rem := 0
  digest := 0
  phase := .idle
  err := .none
  len := 0
  ibuf := []
  cfg := Config.atReset
  pending := []
  replies := []
  faultMark := false

end Sys2Proof.Machine
end

