-- ==== Sys2Proof/Machine/Ops.lean ====
section
/-! DEFINITION. The named operations over IBUF and the registers, the fault action of spec/60_exceptions.md R122 (this block's
whole "taking an exception"), and the reset event (70_reset_and_hazards.md R140). -/

namespace Sys2Proof.Machine

/-- What a step answers. -/
abbrev Result := Host.Outcome State Fault Refusal

/-- One part of a command after another: a stop ends it. -/
def andThen (r : Result) (f : State → Result) : Result :=
  match r with
  | .next s => f s
  | .fault x => .fault x
  | .refused x => .refused x

/-! ## IBUF's bytes -/

/-- What an index that is not listed reads as. DESIGN CHOICE (log 6), unsafe: the spec does not say what IBUF holds before the
host writes it. -/
def Memory.unlisted : Byte := 0#8

/-- The byte at an index. -/
def Memory.read : Memory → Nat → Byte
  | [], _ => Memory.unlisted
  | (k, v) :: m, i => if i = k then v else Memory.read m i

/-- The memory with one byte replaced, in canonical form again. -/
def Memory.write : Memory → Nat → Byte → Memory
  | [], i, v => if v = Memory.unlisted then [] else [(i, v)]
  | (k, w) :: m, i, v =>
    if i < k then (if v = Memory.unlisted then (k, w) :: m else (i, v) :: (k, w) :: m)
    else if i = k then (if v = Memory.unlisted then m else (k, v) :: m)
    else (k, w) :: Memory.write m i v

/-- Indices at or above `lo`, strictly rising, and no entry that reads as an unlisted one. -/
def Memory.wfFrom : Nat → Memory → Bool
  | _, [] => true
  | lo, (k, v) :: m => decide (lo ≤ k) && decide (v ≠ Memory.unlisted) && Memory.wfFrom (k + 1) m

/-- The canonical form. -/
def Memory.wf (m : Memory) : Bool := Memory.wfFrom 0 m

/-- Every listed index is below `n`. -/
def Memory.below (m : Memory) (n : Nat) : Bool := m.all fun e => decide (e.1 < n)

/-- `IBUF[i]` (R10, R40). -/
def State.byteAt (s : State) (i : Nat) : Byte := Memory.read s.ibuf i

/-- `BUF_SIZE` as a number. -/
def State.bufSize (s : State) : Nat := s.cfg.bufSize.val

/-- The `n` bytes from index `start` all lie in IBUF (R40); no byte does so trivially. -/
def State.holdsRange (s : State) (start n : Nat) : Bool := decide (n = 0 ∨ start + n ≤ s.bufSize)

/-- `LE32(i)` (R43): four bytes packed least significant first. -/
def le32 (k : Nat → Byte) (i : Nat) : Word :=
  zext32 (k i) ||| zext32 (k (i + 1)) <<< 8 ||| zext32 (k (i + 2)) <<< 16 ||| zext32 (k (i + 3)) <<< 24

/-! ## Registers -/

/-- The state triple (R21). -/
def State.acc (s : State) : Triple := { a := s.a, b := s.b, c := s.c }

/-- `(A, B, C) <- t`, all three at once (R10). -/
def State.setAcc (s : State) (t : Triple) : State := { s with a := t.a, b := t.b, c := t.c }

/-! ## Taking a fault, and reset -/

/-- `raise Fault(code)` (R122): keep the first fault, PHASE <- FAULT, no other register. The mark is the model's own (log 4). -/
def raiseFault (code : Err) (s : State) : State :=
  { s with err := if s.err = .none then code else s.err, phase := .fault, faultMark := true }

/-- `ERR <- NONE`, with which INIT and RUN leave FAULT (R90, R130): there is no other return from a fault. -/
def clearErr (s : State) : State := { s with err := .none }

/-- The reset event (R140): every register at the value of R37. It does not touch IBUF, which is not the block's state; the
parameters, the host's list and its replies, and the model's mark are not the block's either (log 14). -/
def resetBlock (s : State) : State :=
  { s with
    a := 0, b := 0, c := 0, klen := 0, cursor := 0, rem := 0, digest := 0,
    phase := .idle, err := .none, len := 0 }

end Sys2Proof.Machine
end

