-- ==== Sys2Proof/Machine/Operands.lean ====
section
/-! DEFINITION. The commands' implicit operands (spec/30_encoding.md R61): the three words of a block (41_body.md R92), the tail
bytes and the cascade table (42_tail.md R101), and which IBUF bytes each command reads (20_memory.md R47). -/

namespace Sys2Proof.Machine

/-- R92: the words at `i`, `i + 4` and `i + 8` added into A, B and C. -/
def addBlock (k : Nat → Byte) (i : Nat) (t : Triple) : Triple :=
  { a := t.a + le32 k i, b := t.b + le32 k (i + 4), c := t.c + le32 k (i + 8) }

/-- `k[i]` of the tail: `IBUF[CURSOR + i]` (R100). -/
def State.tailByte (s : State) (i : Nat) : Byte := s.byteAt (s.cursor.toNat + i)

/-- One line of the cascade table (R101). -/
structure TailLine where
  /-- The line acts when at least this many bytes remain. -/
  threshold : Nat
  /-- Which tail byte it adds. -/
  index : Nat
  /-- How far the byte is shifted left. -/
  shift : Nat
  /-- To which accumulator. -/
  target : Acc
  deriving DecidableEq, Repr

/-- The cascade table of R101, in the order of R100. -/
def tailLines : List TailLine :=
  [ ⟨11, 10, 24, .c⟩, ⟨10, 9, 16, .c⟩, ⟨9, 8, 8, .c⟩,
    ⟨8, 7, 24, .b⟩, ⟨7, 6, 16, .b⟩, ⟨6, 5, 8, .b⟩, ⟨5, 4, 0, .b⟩,
    ⟨4, 3, 24, .a⟩, ⟨3, 2, 16, .a⟩, ⟨2, 1, 8, .a⟩, ⟨1, 0, 0, .a⟩ ]

/-- One line of the cascade with `r` bytes remaining: inclusive, so it acts for every `r` at or above its threshold (R102). -/
def applyTailLine (k : Nat → Byte) (r : Nat) (t : Triple) (l : TailLine) : Triple :=
  if l.threshold ≤ r then t.addTo l.target (zext32 (k l.index) <<< l.shift) else t

/-- Lines of the cascade one after another. -/
def cascade (lines : List TailLine) (k : Nat → Byte) (r : Nat) (t : Triple) : Triple :=
  lines.foldl (applyTailLine k r) t

/-- The IBUF indices each command reads when it runs (R47's table). -/
def ibufReads (i : Instr) (s : State) : List Nat :=
  match i with
  | .init => []
  | .block => List.range' s.cursor.toNat 12
  | .tail => List.range' s.cursor.toNat s.rem.toNat
  | .final => []
  | .run => List.range' 0 s.len.toNat

end Sys2Proof.Machine
end

