-- ==== Sys2Proof/Machine/Flags.lean ====
section
/-! DEFINITION. STATUS (spec/10_state.md R28 to R30) and the legality of each command by phase (60_exceptions.md R124). The
arithmetic sets no flag (R34). -/

namespace Sys2Proof.Machine

/-- The PHASE field's value (R28). -/
def Phase.code : Phase → BitVec 3
  | .idle => 0
  | .body => 1
  | .tailed => 2
  | .done => 3
  | .fault => 4

/-- The ERR field's value (R29). -/
def Err.code : Err → BitVec 4
  | .none => 0
  | .illegalCmd => 1
  | .sequence => 2
  | .bounds => 3

/-- STATUS as the host reads it: PHASE in bits [2:0], ERR in bits [7:4], bit 3 and bits [31:8] zero (R28, R29, R30). -/
def State.status (s : State) : Word := 0#24 ++ s.err.code ++ 0#1 ++ s.phase.code

/-- BLOCK is legal in BODY with REM >= 12 (R92, R93). -/
def State.blockLegal (s : State) : Bool := decide (s.phase = .body ∧ 12 ≤ s.rem.toNat)

/-- TAIL is legal in BODY with REM <= 11 (R100). -/
def State.tailLegal (s : State) : Bool := decide (s.phase = .body ∧ s.rem.toNat ≤ 11)

/-- FINAL is legal in TAILED (R110). -/
def State.finalLegal (s : State) : Bool := decide (s.phase = .tailed)

/-- The bounds check of INIT and RUN: unsigned (R91). -/
def State.lenFits (s : State) : Bool := decide (s.len.toNat ≤ s.bufSize)

/-- The table of R124: which commands are "ok" in a state. INIT and RUN are ok in every phase. -/
def legal (i : Instr) (s : State) : Bool :=
  match i with
  | .init => true
  | .block => s.blockLegal
  | .tail => s.tailLegal
  | .final => s.finalLegal
  | .run => true

end Sys2Proof.Machine
end

