-- ==== Sys2Proof/Machine/Body.lean ====
section
/-! DEFINITION. INIT and BLOCK (spec/41_body.md R90 to R94). -/

namespace Sys2Proof.Machine

/-! ## INIT -/

/-- What INIT writes once it has passed the bounds check (R90). -/
def startHash (s : State) : State :=
  { s.setAcc seeds with klen := s.len, cursor := 0, rem := s.len, digest := 0, phase := .body }

/-- INIT (R90): ERR is cleared before the bounds check; LEN > BUF_SIZE raises BOUNDS and writes nothing else (R91, R125). -/
def performInit (s : State) : State :=
  if (clearErr s).lenFits then startHash (clearErr s) else raiseFault .bounds (clearErr s)

/-- INIT's meaning. -/
def execInit (s : State) : Result := .next (performInit s)

/-! ## BLOCK -/

/-- What BLOCK writes when it is legal (R92): the three words added, MIX, CURSOR + 12, REM - 12. -/
def foldBlock (s : State) : State :=
  { s.setAcc (mix (addBlock s.byteAt s.cursor.toNat s.acc)) with
    cursor := s.cursor + BitVec.ofNat 32 blockBytes
    rem := s.rem - BitVec.ofNat 32 blockBytes }

/-- BLOCK (R92), with the checks in the order of R127: ignored in FAULT (R126), SEQUENCE out of order (R124). The last check
fails in no state that keeps R25 (R52; log 10). -/
def performBlock (s : State) : Result :=
  if s.phase = .fault then .next s
  else if s.blockLegal then
    if s.holdsRange s.cursor.toNat blockBytes then .next (foldBlock s) else .fault .ibufReadPastEnd
  else .next (raiseFault .sequence s)

/-- BLOCK's meaning. -/
def execBlock (s : State) : Result := performBlock s

end Sys2Proof.Machine
end

