-- ==== Sys2Proof/Machine/Tail.lean ====
section
/-! DEFINITION. TAIL (spec/42_tail.md R100 to R104). -/

namespace Sys2Proof.Machine

/-- What TAIL writes when it is legal (R100): KLEN whole into C, then the cascade of R101; it does not mix. CURSOR, REM and
KLEN stay. -/
def foldTail (s : State) : State :=
  { s.setAcc (cascade tailLines s.tailByte s.rem.toNat (s.acc.addTo .c s.klen)) with phase := .tailed }

/-- TAIL (R100), with the checks in the order of R127: ignored in FAULT (R126), SEQUENCE out of order (R124). The last check
fails in no state that keeps R25 (R52; log 10). -/
def performTail (s : State) : Result :=
  if s.phase = .fault then .next s
  else if s.tailLegal then
    if s.holdsRange s.cursor.toNat s.rem.toNat then .next (foldTail s) else .fault .ibufReadPastEnd
  else .next (raiseFault .sequence s)

/-- TAIL's meaning. -/
def execTail (s : State) : Result := performTail s

end Sys2Proof.Machine
end

