-- ==== Sys2Proof/Machine/Final.lean ====
section
/-! DEFINITION. FINAL and RUN (spec/43_final.md R110 to R112). -/

namespace Sys2Proof.Machine

/-! ## FINAL -/

/-- What FINAL writes when it is legal (R110): MIX, DIGEST <- the new C, PHASE <- DONE. -/
def finishHash (s : State) : State :=
  { s.setAcc (mix s.acc) with digest := (mix s.acc).c, phase := .done }

/-- FINAL (R110), with the checks in the order of R127: ignored in FAULT (R126), SEQUENCE out of order (R124). -/
def performFinal (s : State) : Result :=
  if s.phase = .fault then .next s
  else if s.finalLegal then .next (finishHash s)
  else .next (raiseFault .sequence s)

/-- FINAL's meaning. -/
def execFinal (s : State) : Result := performFinal s

/-! ## RUN -/

/-- `while REM >= 12: perform BLOCK` (R112), at most `n` times round. -/
def blockLoop : Nat → State → Result
  | 0, s => .next s
  | n + 1, s => if 12 ≤ s.rem.toNat then andThen (performBlock s) (blockLoop n) else .next s

/-- RUN (R112) in one step (R49): INIT, which may raise BOUNDS and stop; the loop, `floor(REM / 12)` times round (R94, R149);
TAIL; FINAL. -/
def performRun (s : State) : Result :=
  if (performInit s).phase = .fault then .next (performInit s)
  else
    andThen (blockLoop ((performInit s).rem.toNat / blockBytes) (performInit s)) fun s1 =>
      andThen (performTail s1) performFinal

/-- RUN's meaning. -/
def execRun (s : State) : Result := performRun s

end Sys2Proof.Machine
end

