-- ==== Sys2Proof/Machine/HostPort.lean ====
section
/-! DEFINITION. What a host access does: the register window (spec/20_memory.md R42, R46; 10_state.md R31 to R33), the write of
a command to CMD (R32; 60_exceptions.md R123, R127), the host's own accesses to IBUF (R41, R53), and reset (R141). -/

namespace Sys2Proof.Machine

/-! ## A CMD write -/

/-- An illegal word (R123): ILLEGAL_CMD, or nothing in FAULT (R126). -/
def illegalWord (s : State) : State := if s.phase = .fault then s else raiseFault .illegalCmd s

/-- A write of a word to CMD performs it as one command (R32, R63, R127). -/
def commandWrite (w : Word) (s : State) : Result :=
  match decode w with
  | .ok i => exec i s
  | .error _ => .next (illegalWord s)

/-! ## The register window -/

/-- A register's byte offset from REG_BASE (R42). -/
def Reg.offset : Reg → Nat
  | .cmd => 0x00
  | .len => 0x04
  | .status => 0x08
  | .digest => 0x0C
  | .a => 0x10
  | .b => 0x14
  | .c => 0x18
  | .cursor => 0x1C
  | .rem => 0x20
  | .klen => 0x24

/-- The register at an offset; none at the reserved offsets 0x28 to 0x3C (R42). -/
def regAt (off : Nat) : Option Reg :=
  if off = 0x00 then some .cmd
  else if off = 0x04 then some .len
  else if off = 0x08 then some .status
  else if off = 0x0C then some .digest
  else if off = 0x10 then some .a
  else if off = 0x14 then some .b
  else if off = 0x18 then some .c
  else if off = 0x1C then some .cursor
  else if off = 0x20 then some .rem
  else if off = 0x24 then some .klen
  else none

/-- What reading a register gives: CMD reads 0 (R32), every other its value. -/
def readReg (r : Reg) (s : State) : Word :=
  match r with
  | .cmd => 0#32
  | .len => s.len
  | .status => s.status
  | .digest => s.digest
  | .a => s.a
  | .b => s.b
  | .c => s.c
  | .cursor => s.cursor
  | .rem => s.rem
  | .klen => s.klen

/-- What writing a register does: CMD performs a command (R32), LEN keeps the value (R31), the read-only ones ignore it (R33). -/
def writeReg (r : Reg) (v : Word) (s : State) : Result :=
  match r with
  | .cmd => commandWrite v s
  | .len => .next { s with len := v }
  | .status => .next s
  | .digest => .next s
  | .a => .next s
  | .b => .next s
  | .c => .next s
  | .cursor => .next s
  | .rem => .next s
  | .klen => .next s

/-- A word read at an offset of the window; reserved offsets read 0 (R42). -/
def windowRead (off : Nat) (s : State) : Word :=
  match regAt off with
  | some r => readReg r s
  | none => 0#32

/-- A word written at an offset of the window; reserved offsets ignore it (R42). -/
def windowWrite (off : Nat) (v : Word) (s : State) : Result :=
  match regAt off with
  | some r => writeReg r v s
  | none => .next s

/-- An access of `bits` bits at a platform address, given to `f` as an offset: inside the 16 words (log 7), 32 bits wide, at a
multiple of 4 (R46; log 8). -/
def windowAccess (bits addr : Nat) (s : State) (f : Nat → Result) : Result :=
  if s.cfg.regBase ≤ addr ∧ addr < s.cfg.regBase + 0x40 then
    if bits ≠ 32 then .refused .notWordAccess
    else if (addr - s.cfg.regBase) % 4 ≠ 0 then .refused .unalignedAccess
    else f (addr - s.cfg.regBase)
  else .fault .outsideWindow

/-! ## IBUF, from the host's side -/

/-- A host access to IBUF at a platform address, given to `f` as an index (R40, R50; log 9). -/
def ibufAccess (addr : Nat) (s : State) (f : Nat → Result) : Result :=
  if s.cfg.ibufBase ≤ addr ∧ addr < s.cfg.ibufBase + s.bufSize then f (addr - s.cfg.ibufBase)
  else .fault .outsideIbuf

/-- The byte at an index replaced. -/
def pokeByte (i : Nat) (v : Byte) (s : State) : State := { s with ibuf := Memory.write s.ibuf i v }

/-- A read's value given back to the host; a read changes nothing of the block (R48). -/
def reply (r : Reply) (s : State) : State := { s with replies := r :: s.replies }

/-! ## Events -/

/-- One step of the world outside: a host access (R53) or reset (R141). -/
def perform (e : HostEvent) (s : State) : Result :=
  match e with
  | .writeReg bits addr v => windowAccess bits addr s fun off => windowWrite off v s
  | .readReg bits addr => windowAccess bits addr s fun off => .next (reply (.word (windowRead off s)) s)
  | .writeIbuf addr v => ibufAccess addr s fun i => .next (pokeByte i v s)
  | .readIbuf addr => ibufAccess addr s fun i => .next (reply (.byte (s.byteAt i)) s)
  | .reset => .next (resetBlock s)

/-- The state with another list of host events. -/
def State.withPending (s : State) (p : List HostEvent) : State := { s with pending := p }

/-- The oldest pending event taken off the list and performed. With nothing pending the block takes no step of its own: it
waits and keeps all its state (R118, R138, R142). -/
def stepHost (s : State) : Result :=
  match s.pending with
  | [] => .next s
  | e :: rest => perform e (s.withPending rest)

/-- The host event that writes a word to CMD. -/
def cmdWrite (cfg : Config) (w : Word) : HostEvent := .writeReg 32 (cfg.regBase + Reg.offset .cmd) w

/-- The state with one more event before those pending. -/
def State.push (s : State) (e : HostEvent) : State := s.withPending (e :: s.pending)

end Sys2Proof.Machine
end

