-- ==== Sys2Proof/Machine/Step.lean ====
section
/-! DEFINITION. The step: one host access, one command or one reset (spec/20_memory.md R53). -/

namespace Sys2Proof.Machine

/-- One step (R49, R53). -/
def step (s : State) : Host.Outcome State Fault Refusal := stepHost s

/-- The state whose very next step performs the table's word: the host's next access writes it to CMD (R32, R55). The block
fetches nothing, so nothing else is needed (log 2). -/
def State.withFetchWord (s : State) (nbits w : Nat) : State := s.push (cmdWrite s.cfg (tableWord nbits w))

end Sys2Proof.Machine
end

