-- ==== Sys2Proof/Machine/HostProgram.lean ====
section
/-! DEFINITION. The notation of host programs as data (spec/30_encoding.md R66) and the pseudo-instructions HASH and HASHSTEP
(R67). Control flow of the host (a loop on REM) is the host's own (R117; log 15). -/

namespace Sys2Proof.Machine

/-- One line of a host program (R66). -/
inductive HostLine where
  /-- `CMD <mnemonic>`. -/
  | cmd (i : Instr)
  /-- `CMD <word>`, legal or not. -/
  | cmdWord (w : Word)
  /-- `WR <reg>, <value>`. -/
  | wr (r : Reg) (v : Word)
  /-- `RD <reg>`. -/
  | rd (r : Reg)
  /-- `WB <index>, <byte>, ...`. -/
  | wb (index : Nat) (bytes : List Byte)
  /-- `; text`. -/
  | comment (text : String)
  deriving DecidableEq, Repr

/-- Host writes of bytes into IBUF from an index, one access a byte. -/
def ibufWrites (cfg : Config) : Nat → List Byte → List HostEvent
  | _, [] => []
  | i, b :: bs => .writeIbuf (cfg.ibufBase + i) b :: ibufWrites cfg (i + 1) bs

/-- The host accesses of one line (R66); `WR CMD, v` is the same access as `CMD v`. -/
def HostLine.events (cfg : Config) : HostLine → List HostEvent
  | .cmd i => [.writeReg 32 (cfg.regBase + Reg.offset .cmd) (encode i)]
  | .cmdWord w => [.writeReg 32 (cfg.regBase + Reg.offset .cmd) w]
  | .wr r v => [.writeReg 32 (cfg.regBase + Reg.offset r) v]
  | .rd r => [.readReg 32 (cfg.regBase + Reg.offset r)]
  | .wb i bytes => ibufWrites cfg i bytes
  | .comment _ => []

/-- The host accesses of a program. -/
def programEvents (cfg : Config) (p : List HostLine) : List HostEvent := p.flatMap (HostLine.events cfg)

/-- `HASH <n>` (R67). DESIGN CHOICE (log 18): `n` is any number, though LEN holds no length of 2^32 or more (R31, U3); from 2^32
up the LEN line writes `n` modulo 2^32. -/
def pseudoHash (n : Nat) : List HostLine := [.wr .len (BitVec.ofNat 32 n), .cmd .run, .rd .digest]

/-- `HASHSTEP <n>` (R67). DESIGN CHOICE (log 18): from 2^32 up the LEN line writes `n` modulo 2^32 and the BLOCK lines are still
`floor(n / 12)` of the whole `n`, so that there it need not agree with `pseudoHash`. -/
def pseudoHashStep (n : Nat) : List HostLine :=
  [.wr .len (BitVec.ofNat 32 n), .cmd .init] ++ List.replicate (n / 12) (.cmd .block)
    ++ [.cmd .tail, .cmd .final, .rd .digest]

/-- The boot order of 70_reset_and_hazards.md R143 for a key: its bytes into IBUF from index 0, its length to LEN, RUN, read
STATUS, read DIGEST. A key of 2^32 bytes or more is as in `pseudoHash` (log 18). -/
def bootProgram (key : List Byte) : List HostLine :=
  [.wb 0 key, .wr .len (BitVec.ofNat 32 key.length), .cmd .run, .rd .status, .rd .digest]

/-- The CMD writes of INIT, `n / 12` BLOCKs, TAIL and FINAL (R114). -/
def stepwiseHash (cfg : Config) (n : Nat) : List HostEvent :=
  cmdWrite cfg (encode .init) :: List.replicate (n / 12) (cmdWrite cfg (encode .block))
    ++ [cmdWrite cfg (encode .tail), cmdWrite cfg (encode .final)]

end Sys2Proof.Machine
end

