-- ==== Sys2Proof/Machine/HashFunction.lean ====
section
/-! DEFINITION. The hash as a pure function of the key bytes and their number, HASH(k, n), written from spec/43_final.md R113
apart from the commands, which the statements compare with it. -/

namespace Sys2Proof.Machine

/-- R113's loop body at index `i`. -/
def hashBlock (k : Nat → Byte) (i : Nat) (t : Triple) : Triple :=
  mix { a := t.a + le32 k i, b := t.b + le32 k (i + 4), c := t.c + le32 k (i + 8) }

/-- R113's `while r >= 12`, `n` rounds from index `i`. -/
def hashLoop (k : Nat → Byte) : Nat → Nat → Triple → Triple
  | 0, _, t => t
  | n + 1, i, t => hashLoop k n (i + 12) (hashBlock k i t)

/-- R113's loop body over the tail bytes: byte `i + j` into a, b or c. -/
def hashTailByte (k : Nat → Byte) (i : Nat) (t : Triple) (j : Nat) : Triple :=
  if j ≤ 3 then { t with a := t.a + zext32 (k (i + j)) <<< (8 * j) }
  else if j ≤ 7 then { t with b := t.b + zext32 (k (i + j)) <<< (8 * (j - 4)) }
  else { t with c := t.c + zext32 (k (i + j)) <<< (8 * (j - 7)) }

/-- R113 up to the last MIX: the loop, `c <- c + n`, and the tail bytes in ascending order. DESIGN CHOICE (log 19): R113 defines
it for `n` below 2^32 alone; from 2^32 up it adds `n` modulo 2^32 to `c` and still loops over the whole `n`. -/
def hashBeforeMix (k : Nat → Byte) (n : Nat) : Triple :=
  let t := hashLoop k (n / 12) 0 seeds
  (List.range (n % 12)).foldl (hashTailByte k (12 * (n / 12))) { t with c := t.c + BitVec.ofNat 32 n }

/-- The state triple at the end of a hash; `n` of 2^32 or more as in `hashBeforeMix` (log 19). -/
def hashTriple (k : Nat → Byte) (n : Nat) : Triple := mix (hashBeforeMix k n)

/-- HASH(k, n) (R113): the final c; `n` of 2^32 or more as in `hashBeforeMix` (log 19). -/
def hashFn (k : Nat → Byte) (n : Nat) : Word := (hashTriple k n).c

end Sys2Proof.Machine
end

