-- ==== Sys2Proof/Safety.lean ====
section
/-! DEFINITION. What a safe run is: the invariant every step keeps (spec/10_state.md R25, R26, R29, R52), the progress of a
hash against HASH (43_final.md R113), and completing without a stop. -/

namespace Sys2Proof.Machine

/-- A hash is started and not refused: PHASE is BODY, TAILED or DONE (R25). -/
abbrev State.hashing (s : State) : Prop := s.phase = .body ∨ s.phase = .tailed ∨ s.phase = .done

/-- R25's counters: CURSOR + REM = KLEN, CURSOR a multiple of 12, KLEN <= BUF_SIZE. -/
abbrev State.countersOk (s : State) : Prop :=
  s.cursor.toNat + s.rem.toNat = s.klen.toNat ∧ s.cursor.toNat % 12 = 0 ∧ s.klen.toNat ≤ s.bufSize

/-- The registers a command writes, all zero (R37). -/
abbrev State.allZero (s : State) : Prop :=
  s.acc = { a := 0, b := 0, c := 0 } ∧ s.klen = 0 ∧ s.cursor = 0 ∧ s.rem = 0 ∧ s.digest = 0

/-- What holds between any two steps. -/
structure Inv (s : State) : Prop where
  /-- IBUF is in canonical form. -/
  canonical : Memory.wf s.ibuf = true
  /-- IBUF lists indices below BUF_SIZE alone (R40). -/
  inBuffer : Memory.below s.ibuf s.bufSize = true
  /-- ERR is nonzero exactly when PHASE is FAULT (R29). -/
  errPhase : s.err = .none ↔ s.phase ≠ .fault
  /-- In IDLE the registers hold their reset values (R25). -/
  idleReset : s.phase = .idle → s.allZero
  /-- R25 in BODY, TAILED and DONE. -/
  counters : s.hashing → s.countersOk
  /-- R25 in TAILED and DONE. -/
  tailLength : s.phase = .tailed ∨ s.phase = .done → s.rem.toNat ≤ 11
  /-- INIT clears DIGEST (R26, R147). -/
  digestCleared : s.phase = .body ∨ s.phase = .tailed → s.digest = 0
  /-- DIGEST is the final C in DONE (R26, R111). -/
  digestDone : s.phase = .done → s.digest = s.c
  /-- A fault leaves the model's mark (D13; log 4). -/
  marked : s.phase = .fault → s.faultMark = true

/-- How far the hash in progress is, in the terms of HASH (R113): in BODY the loop's rounds so far, in TAILED all but the last
MIX, in DONE the whole. -/
def HashProgress (s : State) : Prop :=
  (s.phase = .body → s.acc = hashLoop s.byteAt (s.cursor.toNat / 12) 0 seeds) ∧
  (s.phase = .tailed → s.acc = hashBeforeMix s.byteAt s.klen.toNat) ∧
  (s.phase = .done → s.acc = hashTriple s.byteAt s.klen.toNat ∧ s.digest = hashFn s.byteAt s.klen.toNat)

/-- The host duty of R144 for one event: while a hash is in progress or done, no IBUF write at an index below KLEN. -/
def keepsKey (s : State) : HostEvent → Prop
  | .writeIbuf addr _ => s.hashing → s.cfg.ibufBase + s.klen.toNat ≤ addr
  | _ => True

/-- A result with one field of the state it goes on with replaced. -/
def mapNext (f : State → State) (r : Result) : Result :=
  match r with
  | .next t => .next (f t)
  | .fault x => .fault x
  | .refused x => .refused x

/-- A step goes on: no fault of the model, no refusal. -/
def Completes (r : Result) : Prop := ∃ t, r = .next t

end Sys2Proof.Machine
end

