-- ==== Sys2Proof/Certificates/Slice0/Obligations.lean ====
section
/-! DEFINITION. The statements for the provers, from the spec's numbered rules. -/

open Sys2Proof Sys2Proof.Machine

/-! ## Encoding -/

/-- R68: the five command words in full, encoded and decoded. -/
def Obligations.CommandWordsInFull : Prop :=
  (encode .init = 0x00000001#32 ∧ decode 0x00000001#32 = .ok .init) ∧
  (encode .block = 0x00000002#32 ∧ decode 0x00000002#32 = .ok .block) ∧
  (encode .tail = 0x00000003#32 ∧ decode 0x00000003#32 = .ok .tail) ∧
  (encode .final = 0x00000004#32 ∧ decode 0x00000004#32 = .ok .final) ∧
  (encode .run = 0x00000005#32 ∧ decode 0x00000005#32 = .ok .run)

/-- R63, R64: which words are commands, which command each is, and that every other word is illegal and raises ILLEGAL_CMD
(outside FAULT, where R126 has it ignored). -/
def Obligations.DecodeAcceptsExactlyTheFiveWords : Prop :=
  ∀ w : Word,
    ((∃ i, decode w = .ok i) ↔ w &&& 0xFFFFFFF0#32 = 0#32 ∧ 1 ≤ w.toNat ∧ w.toNat ≤ 5) ∧
    (∀ i, decode w = .ok i → opOf i = BitVec.extractLsb' 0 4 w ∧ BitVec.extractLsb' 4 28 w = 0#28) ∧
    (BitVec.extractLsb' 4 28 w ≠ 0#28 → decode w = .error .reservedBits) ∧
    (w = 0x00000000#32 ∨ 0x00000006 ≤ w.toNat ∧ w.toNat ≤ 0x0000000F → decode w = .error .reservedOp) ∧
    (∀ s e, decode w = .error e → s.phase ≠ .fault → commandWrite w s = .next (raiseFault .illegalCmd s))

/-- R60, R63, R65: decoding and encoding agree in both directions, on words and on the bytes of a bus (R44). -/
def Obligations.DecodeAndEncodeAgree : Prop :=
  (∀ (w : Word) (i : Instr), decode w = .ok i ↔ w = encode i) ∧
  (∀ (bs : List Byte) (i : Instr) (rest : List Byte),
    decodeBytes bs = .ok (i, rest) ↔ bs = bytesOfWord (encode i) ++ rest) ∧
  (∀ i : Instr, decodeTableWord 32 (encode i).toNat = some i)

/-- R44: lane `j` carries bits `[8j+7:8j]`, and the four lanes give the word back. -/
def Obligations.ByteLanesCarryTheWord : Prop :=
  (∀ (w : Word) (j n : Nat), j < 4 → n < 8 → (lane w j).getLsbD n = w.getLsbD (8 * j + n)) ∧
  (∀ w : Word, wordOfBytes (lane w 0) (lane w 1) (lane w 2) (lane w 3) = w) ∧
  (∀ b0 b1 b2 b3 : Byte, bytesOfWord (wordOfBytes b0 b1 b2 b3) = [b0, b1, b2, b3])

/-! ## The diffuser -/

/-- R80: MIX is the listing of nine rows, statement by statement. -/
def Obligations.MixIsTheNineRowListing : Prop :=
  ∀ a b c : Word, mix ⟨a, b, c⟩ =
    let a := a - b; let a := a - c; let a := a ^^^ (c >>> 13)
    let b := b - c; let b := b - a; let b := b ^^^ (a <<< 8)
    let c := c - a; let c := c - b; let c := c ^^^ (b >>> 13)
    let a := a - b; let a := a - c; let a := a ^^^ (c >>> 12)
    let b := b - c; let b := b - a; let b := b ^^^ (a <<< 16)
    let c := c - a; let c := c - b; let c := c ^^^ (b >>> 5)
    let a := a - b; let a := a - c; let a := a ^^^ (c >>> 3)
    let b := b - c; let b := b - a; let b := b ^^^ (a <<< 10)
    let c := c - a; let c := c - b; let c := c ^^^ (b >>> 15)
    ⟨a, b, c⟩

/-- R81: the row table, the shape of a row, and that a row changes its target alone. -/
def Obligations.MixRowsFollowTheTable : Prop :=
  schedule.map (fun r => (r.target, r.shift)) =
    [(.a, .right 13), (.b, .left 8), (.c, .right 13), (.a, .right 12), (.b, .left 16), (.c, .right 5),
     (.a, .right 3), (.b, .left 10), (.c, .right 15)] ∧
  (∀ sh a b c, applyRow ⟨a, b, c⟩ ⟨.a, sh⟩ = ⟨(a - b - c) ^^^ sh.apply c, b, c⟩) ∧
  (∀ sh a b c, applyRow ⟨a, b, c⟩ ⟨.b, sh⟩ = ⟨a, (b - c - a) ^^^ sh.apply a, c⟩) ∧
  (∀ sh a b c, applyRow ⟨a, b, c⟩ ⟨.c, sh⟩ = ⟨a, b, (c - a - b) ^^^ sh.apply b⟩) ∧
  (∀ r ∈ schedule, ∀ n, (r.shift = .left n → r.target = .b) ∧
    (r.shift = .right n → r.target = .a ∨ r.target = .c))

/-- R83: MIX is a bijection, each row is one on its target, and UNMIX, by its listing, is the inverse. -/
def Obligations.UnmixInvertsMix : Prop :=
  Function.Bijective mix ∧
  (∀ sh y z, Function.Bijective fun x => rowValue sh x y z) ∧
  (∀ t, unmix (mix t) = t) ∧
  (∀ t, mix (unmix t) = t) ∧
  (∀ a b c : Word, unmix ⟨a, b, c⟩ =
    let c := c ^^^ (b >>> 15); let c := c + b; let c := c + a
    let b := b ^^^ (a <<< 10); let b := b + a; let b := b + c
    let a := a ^^^ (c >>> 3); let a := a + c; let a := a + b
    let c := c ^^^ (b >>> 5); let c := c + b; let c := c + a
    let b := b ^^^ (a <<< 16); let b := b + a; let b := b + c
    let a := a ^^^ (c >>> 12); let a := a + c; let a := a + b
    let c := c ^^^ (b >>> 13); let c := c + b; let c := c + a
    let b := b ^^^ (a <<< 8); let b := b + a; let b := b + c
    let a := a ^^^ (c >>> 13); let a := a + c; let a := a + b
    ⟨a, b, c⟩)

/-- R84: the zero triple is a fixed point of MIX. -/
def Obligations.MixOfZeroIsZero : Prop :=
  mix ⟨0#32, 0#32, 0#32⟩ = ⟨0#32, 0#32, 0#32⟩ ∧
  (∀ sh : Shift, sh.apply 0#32 = 0#32)

/-- R43: four bytes, least significant first; the `+` of the source gives the same word. -/
def Obligations.WordsArePackedLeastSignificantFirst : Prop :=
  ∀ (k : Nat → Byte) (i : Nat),
    le32 k i = zext32 (k i) ||| zext32 (k (i + 1)) <<< 8 ||| zext32 (k (i + 2)) <<< 16 ||| zext32 (k (i + 3)) <<< 24 ∧
    le32 k i = zext32 (k i) + zext32 (k (i + 1)) <<< 8 + zext32 (k (i + 2)) <<< 16 + zext32 (k (i + 3)) <<< 24 ∧
    (le32 k i).toNat =
      (k i).toNat + 256 * (k (i + 1)).toNat + 65536 * (k (i + 2)).toNat + 16777216 * (k (i + 3)).toNat ∧
    (k i = 0x01#8 → k (i + 1) = 0x02#8 → k (i + 2) = 0x03#8 → k (i + 3) = 0x04#8 → le32 k i = 0x04030201#32)

/-! ## Reset and STATUS -/

/-- R37, R140: what reset leaves in every register, and that it does not touch IBUF; the same at `State.reset`. What it leaves
of the model's own fields is the model's choice (log 14). -/
def Obligations.ResetGivesEveryRegister : Prop :=
  (∀ s : State, ∃ t, step (s.push .reset) = .next t ∧
    t.a = 0 ∧ t.b = 0 ∧ t.c = 0 ∧ t.klen = 0 ∧ t.cursor = 0 ∧ t.rem = 0 ∧ t.digest = 0 ∧
    t.phase = .idle ∧ t.err = .none ∧ t.len = 0 ∧ t.status = 0 ∧ readReg .cmd t = 0 ∧
    (∀ i, t.byteAt i = s.byteAt i)) ∧
  (State.reset.acc = ⟨0, 0, 0⟩ ∧ State.reset.klen = 0 ∧ State.reset.cursor = 0 ∧ State.reset.rem = 0 ∧
    State.reset.digest = 0 ∧ State.reset.phase = .idle ∧ State.reset.err = .none ∧ State.reset.len = 0 ∧
    State.reset.status = 0 ∧ readReg .cmd State.reset = 0)

/-- R30, with the fields of R28 and R29: where PHASE and ERR lie in STATUS, that every other bit reads 0, and that a host write
to STATUS is ignored. -/
def Obligations.StatusHoldsPhaseAndErr : Prop :=
  (∀ s : State,
    BitVec.extractLsb' 0 3 s.status = s.phase.code ∧ BitVec.extractLsb' 4 4 s.status = s.err.code ∧
    s.status.getLsbD 3 = false ∧ (∀ n, 8 ≤ n → s.status.getLsbD n = false)) ∧
  (∀ (s : State) (v : Word), step (s.push (.writeReg 32 (s.cfg.regBase + 0x08) v)) = .next s) ∧
  [Phase.idle, .body, .tailed, .done, .fault].map Phase.code = [0, 1, 2, 3, 4] ∧
  [Err.none, .illegalCmd, .sequence, .bounds].map Err.code = [0, 1, 2, 3]

/-- R28: what enters each phase, that BODY stays BODY across BLOCK, where PHASE lies in STATUS and with which values, and that
no host write reaches it. -/
def Obligations.PhasesAreEnteredAsListed : Prop :=
  ∀ (s t : State) (e : HostEvent) (rest : List HostEvent), s.pending = e :: rest → step s = .next t →
    (t.phase ≠ s.phase →
      (t.phase = .idle → e = .reset) ∧
      (t.phase = .body → e = cmdWrite s.cfg (encode .init)) ∧
      (t.phase = .tailed → e = cmdWrite s.cfg (encode .tail)) ∧
      (t.phase = .done → e = cmdWrite s.cfg (encode .final) ∨ e = cmdWrite s.cfg (encode .run)) ∧
      (t.phase = .fault → (∃ w, e = cmdWrite s.cfg w) ∧ t.faultMark = true)) ∧
    (e = cmdWrite s.cfg (encode .block) → s.phase = .body → t.phase ≠ .fault → t.phase = .body) ∧
    (BitVec.extractLsb' 0 3 t.status = t.phase.code ∧ t.phase.code.toNat ≤ 4 ∧
      [Phase.idle, .body, .tailed, .done, .fault].map Phase.code = [0, 1, 2, 3, 4]) ∧
    (∀ v, step (t.push (.writeReg 32 (t.cfg.regBase + 0x08) v)) = .next t)

/-- R29: ERR keeps the first fault until reset, INIT or RUN; what causes each code; that ERR is nonzero exactly when PHASE is
FAULT; where ERR lies in STATUS and with which values; and that no host write reaches it. -/
def Obligations.ErrHoldsTheFirstFault : Prop :=
  ∀ (s t : State) (e : HostEvent) (rest : List HostEvent), s.pending = e :: rest → step s = .next t →
    (s.err ≠ .none → t.err ≠ s.err →
      e = .reset ∨ e = cmdWrite s.cfg (encode .init) ∨ e = cmdWrite s.cfg (encode .run)) ∧
    (t.err ≠ s.err →
      (t.err = .illegalCmd → ∃ w, e = cmdWrite s.cfg w ∧ ∀ i, decode w ≠ .ok i) ∧
      (t.err = .sequence → ∃ i, (i = .block ∨ i = .tail ∨ i = .final) ∧ e = cmdWrite s.cfg (encode i) ∧ legal i s = false) ∧
      (t.err = .bounds → (e = cmdWrite s.cfg (encode .init) ∨ e = cmdWrite s.cfg (encode .run)) ∧
        s.bufSize < s.len.toNat)) ∧
    ((s.err = .none ↔ s.phase ≠ .fault) → (t.err = .none ↔ t.phase ≠ .fault)) ∧
    (BitVec.extractLsb' 4 4 t.status = t.err.code ∧ t.err.code.toNat ≤ 3 ∧
      [Err.none, .illegalCmd, .sequence, .bounds].map Err.code = [0, 1, 2, 3]) ∧
    (∀ v, step (t.push (.writeReg 32 (t.cfg.regBase + 0x08) v)) = .next t)

/-! ## Faults -/

/-- R122: the fault action, that a command which faults has no other effect and reads no byte, and that ERR and PHASE agree
after every command. The mark is the model's own (log 4). -/
def Obligations.FaultsArePrecise : Prop :=
  (∀ (code : Err) (s : State),
    (raiseFault code s).phase = .fault ∧
    (s.err = .none → (raiseFault code s).err = code) ∧
    (s.err ≠ .none → (raiseFault code s).err = s.err) ∧
    { raiseFault code s with phase := s.phase, err := s.err, faultMark := s.faultMark } = s) ∧
  (∀ (i : Instr) (s t : State), exec i s = .next t →
    (t.phase = .fault →
      { t with phase := s.phase, err := s.err, faultMark := s.faultMark } = s ∧
      ∀ m, exec i { s with ibuf := m } = .next { t with ibuf := m }) ∧
    ((s.err = .none ↔ s.phase ≠ .fault) → (t.err = .none ↔ t.phase ≠ .fault)))

/-- R123: a CMD write of an illegal word. -/
def Obligations.IllegalWordRaisesIllegalCmd : Prop :=
  ∀ (s : State) (w : Word), BitVec.extractLsb' 4 28 w ≠ 0#28 ∨ w.toNat = 0 ∨ 6 ≤ w.toNat ∧ w.toNat ≤ 15 →
    (s.phase ≠ .fault → step (s.push (cmdWrite s.cfg w)) = .next (raiseFault .illegalCmd s)) ∧
    (s.phase = .fault → step (s.push (cmdWrite s.cfg w)) = .next s)

/-- R124: the table of phases and commands. An "ok" of BLOCK and TAIL holds in states that keep the invariant (R25), an "ok" of
INIT and RUN in every state; whether their own bounds check passes is R125. -/
def Obligations.SequenceTable : Prop :=
  (∀ s : State,
    (s.phase = .idle → ∀ i ∈ [Instr.block, .tail, .final], exec i s = .next (raiseFault .sequence s)) ∧
    (s.phase = .body → 12 ≤ s.rem.toNat → ∀ i ∈ [Instr.tail, .final], exec i s = .next (raiseFault .sequence s)) ∧
    (s.phase = .body → s.rem.toNat ≤ 11 → ∀ i ∈ [Instr.block, .final], exec i s = .next (raiseFault .sequence s)) ∧
    (s.phase = .tailed → ∀ i ∈ [Instr.block, .tail], exec i s = .next (raiseFault .sequence s)) ∧
    (s.phase = .done → ∀ i ∈ [Instr.block, .tail, .final], exec i s = .next (raiseFault .sequence s)) ∧
    (s.phase = .fault → ∀ i ∈ [Instr.block, .tail, .final], exec i s = .next s)) ∧
  (∀ s : State, Inv s →
    (s.phase = .body → 12 ≤ s.rem.toNat → ∃ t, exec .block s = .next t ∧ t.phase = .body ∧ t.err = .none) ∧
    (s.phase = .body → s.rem.toNat ≤ 11 → ∃ t, exec .tail s = .next t ∧ t.phase = .tailed ∧ t.err = .none) ∧
    (s.phase = .tailed → ∃ t, exec .final s = .next t ∧ t.phase = .done ∧ t.err = .none)) ∧
  (∀ s : State, ∃ t u, exec .init s = .next t ∧ exec .run s = .next u ∧ t.err ≠ .sequence ∧ u.err ≠ .sequence ∧
    (s.len.toNat ≤ s.bufSize → t.phase = .body ∧ u.phase = .done))

/-- R125: INIT and RUN raise BOUNDS, in every phase, and no read past the buffer is left possible. -/
def Obligations.BoundsRaisedByInitAndRun : Prop :=
  (∀ s : State, s.bufSize < s.len.toNat →
    exec .init s = .next { s with err := .bounds, phase := .fault, faultMark := true } ∧
    exec .run s = .next { s with err := .bounds, phase := .fault, faultMark := true }) ∧
  (∀ (s : State) (i : Instr), Inv s → exec i s ≠ .fault .ibufReadPastEnd)

/-- R126: in FAULT only INIT and RUN do anything. -/
def Obligations.FaultPhaseIgnoresAllButInitAndRun : Prop :=
  ∀ (s : State) (w : Word), s.phase = .fault → w ≠ encode .init → w ≠ encode .run →
    step (s.push (cmdWrite s.cfg w)) = .next s

/-- R127: the order of the checks of a CMD write. -/
def Obligations.CommandChecksComeInOrder : Prop :=
  ∀ (s : State) (w : Word),
    (s.phase = .fault → w ≠ encode .init → w ≠ encode .run → commandWrite w s = .next s) ∧
    (s.phase ≠ .fault → (∀ i, decode w ≠ .ok i) → commandWrite w s = .next (raiseFault .illegalCmd s)) ∧
    (∀ i, s.phase ≠ .fault → decode w = .ok i → legal i s = false → commandWrite w s = .next (raiseFault .sequence s)) ∧
    (w = encode .init ∨ w = encode .run → s.bufSize < s.len.toNat →
      commandWrite w s = .next (raiseFault .bounds { s with err := .none })) ∧
    (∀ i t, s.phase ≠ .fault → decode w = .ok i → legal i s = true → (i = .init ∨ i = .run → s.len.toNat ≤ s.bufSize) →
      commandWrite w s = .next t → t.phase ≠ .fault)

/-- R130: what leaves FAULT, and where it goes; and that no other command does anything there. -/
def Obligations.FaultIsLeftByInitRunOrReset : Prop :=
  (∀ (s t : State) (e : HostEvent) (rest : List HostEvent), s.pending = e :: rest → step s = .next t →
    s.phase = .fault → t.phase ≠ .fault →
      e = .reset ∨ e = cmdWrite s.cfg (encode .init) ∨ e = cmdWrite s.cfg (encode .run)) ∧
  (∀ s : State, s.phase = .fault →
    (s.len.toNat ≤ s.bufSize → ∃ t u, exec .init s = .next t ∧ t.phase = .body ∧ t.err = .none ∧
      exec .run s = .next u ∧ u.phase = .done ∧ u.err = .none) ∧
    (s.bufSize < s.len.toNat → ∃ t u, exec .init s = .next t ∧ t.phase = .fault ∧ t.err = .bounds ∧
      exec .run s = .next u ∧ u.phase = .fault ∧ u.err = .bounds) ∧
    (∃ t, step (s.push .reset) = .next t ∧ t.phase = .idle ∧ t.err = .none) ∧
    (∀ w, w ≠ encode .init → w ≠ encode .run → commandWrite w s = .next s))

/-! ## The commands -/

/-- R90: INIT, accepted and refused, with everything it leaves alone. -/
def Obligations.InitStartsTheHash : Prop :=
  encode .init = 0x00000001#32 ∧
  ∀ s : State,
    (s.len.toNat ≤ s.bufSize → exec .init s = .next { s with
      a := 0x9e3779b9#32, b := 0x9e3779b9#32, c := 0x003bdc97#32, klen := s.len, cursor := 0, rem := s.len, digest := 0,
      phase := .body, err := .none }) ∧
    (s.bufSize < s.len.toNat → exec .init s = .next { s with err := .bounds, phase := .fault, faultMark := true })

/-- R92: BLOCK, with everything it leaves alone; and that under the invariant it completes and neither counter wraps. -/
def Obligations.BlockFoldsTwelveBytes : Prop :=
  encode .block = 0x00000002#32 ∧
  (∀ s : State, s.phase = .body → 12 ≤ s.rem.toNat → s.cursor.toNat + 12 ≤ s.bufSize →
    exec .block s =
      let m := mix ⟨s.a + le32 s.byteAt s.cursor.toNat, s.b + le32 s.byteAt (s.cursor.toNat + 4),
        s.c + le32 s.byteAt (s.cursor.toNat + 8)⟩
      .next { s with a := m.a, b := m.b, c := m.c, cursor := s.cursor + 12, rem := s.rem - 12 }) ∧
  (∀ s : State, s.phase ≠ .fault → s.phase ≠ .body ∨ s.rem.toNat < 12 → exec .block s = .next (raiseFault .sequence s)) ∧
  (∀ s : State, s.phase = .fault → exec .block s = .next s) ∧
  (∀ s : State, Inv s → s.phase = .body → 12 ≤ s.rem.toNat →
    s.cursor.toNat + 12 ≤ s.bufSize ∧ (s.cursor + 12).toNat = s.cursor.toNat + 12 ∧
    (s.rem - 12).toNat = s.rem.toNat - 12)

/-- R100, R101: TAIL, line by line, with everything it leaves alone (CURSOR, REM and KLEN among it). -/
def Obligations.TailFoldsLengthAndRemainingBytes : Prop :=
  encode .tail = 0x00000003#32 ∧
  (∀ s : State, s.phase = .body → s.rem.toNat ≤ 11 → s.rem.toNat = 0 ∨ s.cursor.toNat + s.rem.toNat ≤ s.bufSize →
    exec .tail s =
      let k := fun i => zext32 (s.byteAt (s.cursor.toNat + i))
      let r := s.rem.toNat
      let c := s.c + s.klen
      let c := if r ≥ 11 then c + k 10 <<< 24 else c
      let c := if r ≥ 10 then c + k 9 <<< 16 else c
      let c := if r ≥ 9 then c + k 8 <<< 8 else c
      let b := if r ≥ 8 then s.b + k 7 <<< 24 else s.b
      let b := if r ≥ 7 then b + k 6 <<< 16 else b
      let b := if r ≥ 6 then b + k 5 <<< 8 else b
      let b := if r ≥ 5 then b + k 4 else b
      let a := if r ≥ 4 then s.a + k 3 <<< 24 else s.a
      let a := if r ≥ 3 then a + k 2 <<< 16 else a
      let a := if r ≥ 2 then a + k 1 <<< 8 else a
      let a := if r ≥ 1 then a + k 0 else a
      .next { s with a := a, b := b, c := c, phase := .tailed }) ∧
  (∀ s : State, s.phase ≠ .fault → s.phase ≠ .body ∨ 11 < s.rem.toNat → exec .tail s = .next (raiseFault .sequence s)) ∧
  (∀ s : State, s.phase = .fault → exec .tail s = .next s)

/-- R104: TAIL's packed form. -/
def Obligations.TailEqualsItsPackedForm : Prop :=
  ∀ (k : Nat → Byte) (r : Nat) (klen : Word) (t : Triple), r ≤ 11 →
    let p := fun i => if i < r then zext32 (k i) else 0#32
    cascade tailLines k r (t.addTo .c klen) =
      { a := t.a + (p 0 ||| p 1 <<< 8 ||| p 2 <<< 16 ||| p 3 <<< 24)
        b := t.b + (p 4 ||| p 5 <<< 8 ||| p 6 <<< 16 ||| p 7 <<< 24)
        c := t.c + klen + (p 8 <<< 8 ||| p 9 <<< 16 ||| p 10 <<< 24) }

/-- R103: the order of the tail's additions, KLEN's among them, does not change its result: KLEN may come before every line,
after every line, or between any two. -/
def Obligations.TailOrderIsImmaterial : Prop :=
  ∀ (before after : List TailLine) (k : Nat → Byte) (r : Nat) (klen : Word) (t : Triple), (before ++ after).Perm tailLines →
    cascade after k r ((cascade before k r t).addTo .c klen) = cascade tailLines k r (t.addTo .c klen)

/-- R102: the cascade is inclusive. One more remaining byte adds that byte, at its own place, to what the shorter tail adds;
and the table of R101 puts byte `i` under the threshold `i + 1`. -/
def Obligations.TailCascadeIsInclusive : Prop :=
  (∀ (k : Nat → Byte) (t : Triple), cascade tailLines k 0 t = t) ∧
  (∀ (k : Nat → Byte) (r : Nat) (t : Triple) (l : TailLine), l ∈ tailLines → l.index = r →
    cascade tailLines k (r + 1) t = (cascade tailLines k r t).addTo l.target (zext32 (k r) <<< l.shift)) ∧
  (∀ l ∈ tailLines, l.threshold = l.index + 1)

/-- R110: FINAL, with everything it leaves alone. -/
def Obligations.FinalPublishesTheDigest : Prop :=
  encode .final = 0x00000004#32 ∧
  (∀ s : State, s.phase = .tailed →
    exec .final s =
      let m := mix ⟨s.a, s.b, s.c⟩
      .next { s with a := m.a, b := m.b, c := m.c, digest := m.c, phase := .done }) ∧
  (∀ s : State, s.phase ≠ .fault → s.phase ≠ .tailed → exec .final s = .next (raiseFault .sequence s)) ∧
  (∀ s : State, s.phase = .fault → exec .final s = .next s)

/-- R112, R113: RUN, from any state whatever, is HASH of the first LEN bytes, with everything it leaves alone; and BOUNDS is
its one fault. -/
def Obligations.RunComputesTheHash : Prop :=
  encode .run = 0x00000005#32 ∧
  ∀ s : State,
    (s.len.toNat ≤ s.bufSize → exec .run s =
      let n := s.len.toNat
      let h := hashTriple s.byteAt n
      .next { s with
        a := h.a, b := h.b, c := h.c, klen := s.len, cursor := BitVec.ofNat 32 (12 * (n / 12)),
        rem := BitVec.ofNat 32 (n % 12), digest := hashFn s.byteAt n, phase := .done, err := .none }) ∧
    (s.bufSize < s.len.toNat → exec .run s = .next { s with err := .bounds, phase := .fault, faultMark := true })

/-- R114: RUN and the commands in a row leave the same state, whether the length fits or not, and what they leave. -/
def Obligations.RunEqualsTheCommandsInARow : Prop :=
  ∀ s : State,
    Host.Core.run Sys2Proof.core (s.len.toNat / 12 + 3)
        { s with pending := stepwiseHash s.cfg s.len.toNat ++ s.pending } = exec .run s ∧
    ∃ t, exec .run s = .next t ∧
      (s.len.toNat ≤ s.bufSize → t.digest = hashFn s.byteAt s.len.toNat ∧ t.phase = .done ∧ t.err = .none ∧
        t.klen = s.len ∧ t.cursor.toNat = 12 * (s.len.toNat / 12) ∧ t.rem.toNat = s.len.toNat % 12) ∧
      (s.bufSize < s.len.toNat → t.phase = .fault ∧ t.err = .bounds)

/-- R67: the expansions of the two pseudo-instructions, and that they leave the same state, for every length LEN can hold. What
the model makes of a larger one is its own choice (log 18), on which nothing rests here. -/
def Obligations.HashEqualsHashStep : Prop :=
  ∀ (s : State) (n : Nat), n < 2 ^ 32 →
    pseudoHash n = [.wr .len (BitVec.ofNat 32 n), .cmd .run, .rd .digest] ∧
    pseudoHashStep n = [.wr .len (BitVec.ofNat 32 n), .cmd .init] ++ List.replicate (n / 12) (.cmd .block) ++
      [.cmd .tail, .cmd .final, .rd .digest] ∧
    ∃ t, Host.Core.run Sys2Proof.core 3 { s with pending := programEvents s.cfg (pseudoHash n) ++ s.pending } = .next t ∧
      Host.Core.run Sys2Proof.core (n / 12 + 5)
        { s with pending := programEvents s.cfg (pseudoHashStep n) ++ s.pending } = .next t

/-- R143: the boot order gives the key's digest, from any state with IBUF in canonical form. That the key takes one step a byte,
and so the number of steps here, is the model's choice (log 15). -/
def Obligations.BootOrderGivesTheDigest : Prop :=
  ∀ (s : State) (key : List Byte), Memory.wf s.ibuf = true → key.length ≤ s.bufSize → key.length < 2 ^ 32 →
    ∃ t, Host.Core.run Sys2Proof.core (key.length + 4)
        { s with pending := programEvents s.cfg (bootProgram key) ++ s.pending } = .next t ∧
      t.pending = s.pending ∧
      t.replies = .word (hashFn (fun i => key.getD i 0) key.length) :: .word 0x00000003#32 :: s.replies

/-- R116: the empty key's digest. -/
def Obligations.EmptyKeyDigest : Prop :=
  (∀ k : Nat → Byte, hashFn k 0 = 0xcc88cd5e#32) ∧
  mix ⟨0x9e3779b9#32, 0x9e3779b9#32, 0x003bdc97#32⟩ = ⟨0x4118d180#32, 0xcd1d0bf5#32, 0xcc88cd5e#32⟩ ∧
  (∀ s : State, s.len = 0 → ∃ t, exec .run s = .next t ∧ t.digest = 0xcc88cd5e#32 ∧ t.phase = .done)

/-- R115: the digest depends on the key bytes and their number alone. -/
def Obligations.DigestDependsOnTheKeyAlone : Prop :=
  ∀ s u : State, s.len = u.len → s.len.toNat ≤ s.bufSize → u.len.toNat ≤ u.bufSize →
    (∀ i, i < s.len.toNat → s.byteAt i = u.byteAt i) →
    ∃ t v, exec .run s = .next t ∧ exec .run u = .next v ∧ t.digest = v.digest ∧
      t.digest = hashFn s.byteAt s.len.toNat

/-- R94: exactly `floor(n / 12)` BLOCKs are legal after INIT, and where they leave the counters. -/
def Obligations.ExactlyFloorBlocksAreLegal : Prop :=
  ∀ (s : State) (j : Nat), s.len.toNat ≤ s.bufSize → j ≤ s.len.toNat / 12 →
    ∃ t, Host.Core.run Sys2Proof.core (j + 1)
        { s with pending := cmdWrite s.cfg (encode .init) :: List.replicate j (cmdWrite s.cfg (encode .block)) ++ s.pending }
        = .next t ∧
      t.phase = .body ∧ t.err = .none ∧ t.cursor.toNat = 12 * j ∧ t.rem.toNat = s.len.toNat - 12 * j ∧
      (j = s.len.toNat / 12 → t.rem.toNat = s.len.toNat % 12 ∧ exec .block t = .next (raiseFault .sequence t))

/-- R112, R149: RUN's loop ends, after `floor(REM / 12)` rounds, with REM below 12; more rounds would change nothing. -/
def Obligations.RunLoopEnds : Prop :=
  ∀ s : State, Inv s → s.phase = .body →
    ∃ t, blockLoop (s.rem.toNat / 12) s = .next t ∧ t.phase = .body ∧ t.rem.toNat = s.rem.toNat % 12 ∧
      t.cursor.toNat = s.cursor.toNat + 12 * (s.rem.toNat / 12) ∧
      ∀ n, s.rem.toNat / 12 ≤ n → blockLoop n s = .next t

/-! ## What a step leaves alone -/

/-- R20's column "written by", with R22 and R26: which event changes which register. -/
def Obligations.RegistersAreWrittenOnlyAsListed : Prop :=
  ∀ (s t : State) (e : HostEvent) (rest : List HostEvent), s.pending = e :: rest → step s = .next t → e ≠ .reset →
    (t.acc ≠ s.acc → ∃ i, e = cmdWrite s.cfg (encode i)) ∧
    (t.klen ≠ s.klen → e = cmdWrite s.cfg (encode .init) ∨ e = cmdWrite s.cfg (encode .run)) ∧
    (t.cursor ≠ s.cursor ∨ t.rem ≠ s.rem →
      e = cmdWrite s.cfg (encode .init) ∨ e = cmdWrite s.cfg (encode .block) ∨ e = cmdWrite s.cfg (encode .run)) ∧
    (t.digest ≠ s.digest →
      e = cmdWrite s.cfg (encode .init) ∨ e = cmdWrite s.cfg (encode .final) ∨ e = cmdWrite s.cfg (encode .run)) ∧
    (t.phase ≠ s.phase → ∃ w, e = cmdWrite s.cfg w) ∧
    (t.len ≠ s.len → ∃ v, e = .writeReg 32 (s.cfg.regBase + 0x04) v) ∧
    t.cfg = s.cfg ∧ t.pending = rest

/-- R41: the block never writes IBUF. No command changes a byte (nor LEN, the parameters, the host's list or its replies), and
a step that changes a byte is a host write to IBUF. -/
def Obligations.OnlyTheHostWritesIbuf : Prop :=
  (∀ (i : Instr) (s t : State), exec i s = .next t →
    (∀ x, t.byteAt x = s.byteAt x) ∧ t.ibuf = s.ibuf ∧ t.len = s.len ∧ t.cfg = s.cfg ∧ t.pending = s.pending ∧
      t.replies = s.replies) ∧
  (∀ (s t : State) (e : HostEvent) (rest : List HostEvent), s.pending = e :: rest → step s = .next t →
    ∀ x, t.byteAt x ≠ s.byteAt x → ∃ addr v, e = .writeIbuf addr v)

/-- R47: a command's outcome depends on no IBUF byte but those R47's table lists for it. That each is read once only is not
something a state shows (log 16). -/
def Obligations.CommandsReadOnlyTheirBytes : Prop :=
  ∀ (i : Instr) (s : State) (m : Memory), (∀ x ∈ ibufReads i s, Memory.read m x = s.byteAt x) →
    exec i { s with ibuf := m } = mapNext (fun t => { t with ibuf := m }) (exec i s)

/-- R52: every index a command reads is below BUF_SIZE, BLOCK's and TAIL's below KLEN. -/
def Obligations.ReadsStayInsideTheBuffer : Prop :=
  ∀ (i : Instr) (s : State), Inv s → legal i s = true →
    (i = .block ∨ i = .tail → s.klen.toNat ≤ s.bufSize ∧ ∀ x ∈ ibufReads i s, x < s.klen.toNat) ∧
    (i = .block → s.cursor.toNat + 12 ≤ s.klen.toNat) ∧
    (i = .tail → s.cursor.toNat + s.rem.toNat = s.klen.toNat) ∧
    (i = .init ∨ i = .run → s.bufSize < s.len.toNat → ∃ t, exec i s = .next t ∧ t.phase = .fault ∧ t.err = .bounds) ∧
    ((i = .run → s.len.toNat ≤ s.bufSize) → ∀ x ∈ ibufReads i s, x < s.bufSize)

/-- R145: INIT copies LEN into KLEN and REM, and LEN does not matter to a hash in progress after that. -/
def Obligations.LenWriteDoesNotReachTheHash : Prop :=
  (∀ s t : State, exec .init s = .next t → t.phase = .body → t.klen = s.len ∧ t.rem = s.len) ∧
  (∀ (i : Instr) (s : State) (v : Word), i = .block ∨ i = .tail ∨ i = .final →
    exec i { s with len := v } = mapNext (fun t => { t with len := v }) (exec i s)) ∧
  (∀ (s : State) (v : Word), step (s.push (.writeReg 32 (s.cfg.regBase + 0x04) v)) = .next { s with len := v })

/-! ## The host's accesses -/

/-- A host write to IBUF changes that byte and nothing else, and keeps the canonical form (R41, R53, R55). -/
def Obligations.HostWriteChangesOneByte : Prop :=
  ∀ (s : State) (i : Nat) (v : Byte), Memory.wf s.ibuf = true → i < s.bufSize →
    ∃ t, step (s.push (.writeIbuf (s.cfg.ibufBase + i) v)) = .next t ∧ Memory.wf t.ibuf = true ∧ t.byteAt i = v ∧
      (∀ x, x ≠ i → t.byteAt x = s.byteAt x) ∧ { t with ibuf := s.ibuf } = s

/-- R42, R33: the register window, word by word, read and written. -/
def Obligations.RegisterWindowMap : Prop :=
  ∀ (s : State) (v : Word),
    (∀ p ∈ [(0x00, 0#32), (0x04, s.len), (0x08, s.status), (0x0C, s.digest), (0x10, s.a), (0x14, s.b), (0x18, s.c),
        (0x1C, s.cursor), (0x20, s.rem), (0x24, s.klen), (0x28, 0#32), (0x2C, 0#32), (0x30, 0#32), (0x34, 0#32),
        (0x38, 0#32), (0x3C, 0#32)],
      step (s.push (.readReg 32 (s.cfg.regBase + p.1))) = .next { s with replies := .word p.2 :: s.replies }) ∧
    step (s.push (.writeReg 32 (s.cfg.regBase + 0x00) v)) = commandWrite v s ∧
    step (s.push (.writeReg 32 (s.cfg.regBase + 0x04) v)) = .next { s with len := v } ∧
    (∀ off ∈ [0x08, 0x0C, 0x10, 0x14, 0x18, 0x1C, 0x20, 0x24, 0x28, 0x2C, 0x30, 0x34, 0x38, 0x3C],
      step (s.push (.writeReg 32 (s.cfg.regBase + off) v)) = .next s)

/-- R46: an access to the window that is not an aligned 32-bit access is refused. Under which name is the model's choice (log 8)
and stands in RefusedAccessesAreNamed. -/
def Obligations.OtherWindowAccessesAreRefused : Prop :=
  ∀ (s : State) (bits off : Nat) (v : Word), off < 0x40 → bits ≠ 32 ∨ off % 4 ≠ 0 →
    (∃ r, step (s.push (.readReg bits (s.cfg.regBase + off))) = .refused r) ∧
    (∃ r, step (s.push (.writeReg bits (s.cfg.regBase + off) v)) = .refused r)

/-- The model's choice (log 7, log 9; R40, R42): a host access outside the window, or outside IBUF's BUF_SIZE bytes, stops. -/
def Obligations.AccessesOutsideBothSpacesStop : Prop :=
  (∀ (s : State) (bits addr : Nat) (v : Word), addr < s.cfg.regBase ∨ s.cfg.regBase + 0x40 ≤ addr →
    step (s.push (.readReg bits addr)) = .fault .outsideWindow ∧
    step (s.push (.writeReg bits addr v)) = .fault .outsideWindow) ∧
  (∀ (s : State) (addr : Nat) (v : Byte), addr < s.cfg.ibufBase ∨ s.cfg.ibufBase + s.bufSize ≤ addr →
    step (s.push (.readIbuf addr)) = .fault .outsideIbuf ∧ step (s.push (.writeIbuf addr v)) = .fault .outsideIbuf)

/-- R48: a read changes nothing but what the host has read; the same read twice gives the same value; what each register's read
gives, CMD's 0 among it; that no step but a host write to IBUF changes a byte, so that a later read of it gives the same value;
and CMD is the one address whose write does more than store. -/
def Obligations.ReadsHaveNoSideEffects : Prop :=
  (∀ (s t : State) (e : HostEvent), (∃ bits addr, e = .readReg bits addr) ∨ (∃ addr, e = .readIbuf addr) →
    step (s.push e) = .next t →
      ∃ r, t = { s with replies := r :: s.replies } ∧
        step (t.push e) = .next { s with replies := r :: r :: s.replies }) ∧
  (∀ (s : State) (i : Nat), i < s.bufSize →
    step (s.push (.readIbuf (s.cfg.ibufBase + i))) = .next { s with replies := .byte (s.byteAt i) :: s.replies }) ∧
  (∀ (s t : State) (e : HostEvent) (rest : List HostEvent), s.pending = e :: rest → (∀ addr v, e ≠ .writeIbuf addr v) →
    step s = .next t → ∀ i, t.byteAt i = s.byteAt i) ∧
  (∀ s : State, ∀ p ∈ [(0x00, 0#32), (0x04, s.len), (0x08, s.status), (0x0C, s.digest), (0x10, s.a), (0x14, s.b), (0x18, s.c),
      (0x1C, s.cursor), (0x20, s.rem), (0x24, s.klen)],
    step (s.push (.readReg 32 (s.cfg.regBase + p.1))) = .next { s with replies := .word p.2 :: s.replies }) ∧
  (∀ (s t : State) (bits addr : Nat) (v : Word), step (s.push (.writeReg bits addr v)) = .next t →
    { t with len := s.len } ≠ s → addr = s.cfg.regBase)

/-- A step runs the decoded command (R32, R49, R53): the host's write of a command's word to CMD is that command, on the state
without the write in the host's list; so is the word that `withFetchWord` places. -/
def Obligations.StepRunsTheDecodedCommand : Prop :=
  (∀ (s : State) (rest : List HostEvent) (w : Word) (i : Instr), decode w = .ok i →
    s.pending = cmdWrite s.cfg w :: rest → step s = exec i { s with pending := rest }) ∧
  (∀ (s : State) (w : Word) (i : Instr), decode w = .ok i → step (s.withFetchWord 32 w.toNat) = exec i s)

/-- R118, R138, R142: with nothing from outside, nothing changes. -/
def Obligations.BlockTakesNoStepOfItsOwn : Prop :=
  ∀ (s : State) (k : Nat), s.pending = [] → Host.Core.run Sys2Proof.core k s = .next s

/-! ## Invariants -/

/-- The invariant and the progress of a hash hold at reset, for every choice of the parameters. -/
def Obligations.InvariantHoldsAtReset : Prop :=
  ∀ cfg : Config, Inv { State.reset with cfg := cfg } ∧ HashProgress { State.reset with cfg := cfg }

/-- R25, R26, R29, R52: every step keeps the invariant, whatever the host does. -/
def Obligations.EveryStepKeepsTheInvariant : Prop :=
  ∀ s t : State, Inv s → step s = .next t → Inv t

/-- R52, R64, R112: from a state that keeps the invariant every command, and every CMD write, goes on. -/
def Obligations.NoCommandStops : Prop :=
  ∀ s : State, Inv s → (∀ i : Instr, Completes (exec i s)) ∧ (∀ w : Word, Completes (commandWrite w s))

/-- R113, R118, R144: while the host keeps its duty, every step keeps the hash in progress on HASH's own way, so that DIGEST is
HASH of the key whenever PHASE is DONE. -/
def Obligations.EveryStepKeepsTheHashOnItsWay : Prop :=
  (∀ (s t : State) (e : HostEvent) (rest : List HostEvent), Inv s → HashProgress s → s.pending = e :: rest →
    keepsKey s e → step s = .next t → HashProgress t) ∧
  (∀ s : State, HashProgress s → s.phase = .done → s.digest = hashFn s.byteAt s.klen.toNat)

/-- The canonical form (log 6): two memories in it that read alike are the same data. -/
def Obligations.CanonicalMemoriesThatReadAlikeAreEqual : Prop :=
  ∀ m n : Memory, Memory.wf m = true → Memory.wf n = true → (∀ i, Memory.read m i = Memory.read n i) → m = n

/-- D13 (log 4): the sticky mark is set by every fault and cleared by nothing. -/
def Obligations.FaultMarkIsSticky : Prop :=
  ∀ s t : State, step s = .next t →
    (s.faultMark = true → t.faultMark = true) ∧ (t.phase = .fault → s.phase ≠ .fault → t.faultMark = true)

/-- The model's choice (log 10; R125): in a state that breaks R25, a BLOCK or TAIL whose bytes do not all lie in IBUF stops. -/
def Obligations.ReadsPastTheBufferStop : Prop :=
  (∀ s : State, s.phase = .body → 12 ≤ s.rem.toNat → s.bufSize < s.cursor.toNat + 12 →
    exec .block s = .fault .ibufReadPastEnd) ∧
  (∀ s : State, s.phase = .body → 1 ≤ s.rem.toNat → s.rem.toNat ≤ 11 → s.bufSize < s.cursor.toNat + s.rem.toNat →
    exec .tail s = .fault .ibufReadPastEnd)

/-- The model's choice (log 8; R46 says only that such an access is refused): a window access of another width than 32 bits is
refused under the name of its width, whatever its offset, and an unaligned 32-bit one under that of its offset. -/
def Obligations.RefusedAccessesAreNamed : Prop :=
  ∀ (s : State) (bits off : Nat) (v : Word), off < 0x40 →
    (bits ≠ 32 →
      step (s.push (.readReg bits (s.cfg.regBase + off))) = .refused .notWordAccess ∧
      step (s.push (.writeReg bits (s.cfg.regBase + off) v)) = .refused .notWordAccess) ∧
    (off % 4 ≠ 0 →
      step (s.push (.readReg 32 (s.cfg.regBase + off))) = .refused .unalignedAccess ∧
      step (s.push (.writeReg 32 (s.cfg.regBase + off) v)) = .refused .unalignedAccess)
end

