-- ==== Sys2Proof/Laws/State.lean ====
section
/-! SUPPORT. One lemma per field per update of State, each true by rfl, so that no later proof unfolds a record update. -/

namespace Sys2Proof.Machine

/-! ## setAcc: `(A, B, C) <- t` -/

@[simp] theorem State.setAcc_a (s : State) (t : Triple) : (s.setAcc t).a = t.a := rfl
@[simp] theorem State.setAcc_b (s : State) (t : Triple) : (s.setAcc t).b = t.b := rfl
@[simp] theorem State.setAcc_c (s : State) (t : Triple) : (s.setAcc t).c = t.c := rfl
@[simp] theorem State.setAcc_klen (s : State) (t : Triple) : (s.setAcc t).klen = s.klen := rfl
@[simp] theorem State.setAcc_cursor (s : State) (t : Triple) : (s.setAcc t).cursor = s.cursor := rfl
@[simp] theorem State.setAcc_rem (s : State) (t : Triple) : (s.setAcc t).rem = s.rem := rfl
@[simp] theorem State.setAcc_digest (s : State) (t : Triple) : (s.setAcc t).digest = s.digest := rfl
@[simp] theorem State.setAcc_phase (s : State) (t : Triple) : (s.setAcc t).phase = s.phase := rfl
@[simp] theorem State.setAcc_err (s : State) (t : Triple) : (s.setAcc t).err = s.err := rfl
@[simp] theorem State.setAcc_len (s : State) (t : Triple) : (s.setAcc t).len = s.len := rfl
@[simp] theorem State.setAcc_ibuf (s : State) (t : Triple) : (s.setAcc t).ibuf = s.ibuf := rfl
@[simp] theorem State.setAcc_cfg (s : State) (t : Triple) : (s.setAcc t).cfg = s.cfg := rfl
@[simp] theorem State.setAcc_pending (s : State) (t : Triple) : (s.setAcc t).pending = s.pending := rfl
@[simp] theorem State.setAcc_replies (s : State) (t : Triple) : (s.setAcc t).replies = s.replies := rfl
@[simp] theorem State.setAcc_faultMark (s : State) (t : Triple) : (s.setAcc t).faultMark = s.faultMark := rfl
@[simp] theorem State.setAcc_acc (s : State) (t : Triple) : (s.setAcc t).acc = t := rfl
@[simp] theorem State.setAcc_bufSize (s : State) (t : Triple) : (s.setAcc t).bufSize = s.bufSize := rfl
@[simp] theorem State.setAcc_byteAt (s : State) (t : Triple) : (s.setAcc t).byteAt = s.byteAt := rfl

/-! ## raiseFault: the fault action (R122) -/

@[simp] theorem raiseFault_a (s : State) (code : Err) : (raiseFault code s).a = s.a := rfl
@[simp] theorem raiseFault_b (s : State) (code : Err) : (raiseFault code s).b = s.b := rfl
@[simp] theorem raiseFault_c (s : State) (code : Err) : (raiseFault code s).c = s.c := rfl
@[simp] theorem raiseFault_klen (s : State) (code : Err) : (raiseFault code s).klen = s.klen := rfl
@[simp] theorem raiseFault_cursor (s : State) (code : Err) : (raiseFault code s).cursor = s.cursor := rfl
@[simp] theorem raiseFault_rem (s : State) (code : Err) : (raiseFault code s).rem = s.rem := rfl
@[simp] theorem raiseFault_digest (s : State) (code : Err) : (raiseFault code s).digest = s.digest := rfl
@[simp] theorem raiseFault_phase (s : State) (code : Err) : (raiseFault code s).phase = .fault := rfl
@[simp] theorem raiseFault_err (s : State) (code : Err) : (raiseFault code s).err = if s.err = .none then code else s.err := rfl
@[simp] theorem raiseFault_len (s : State) (code : Err) : (raiseFault code s).len = s.len := rfl
@[simp] theorem raiseFault_ibuf (s : State) (code : Err) : (raiseFault code s).ibuf = s.ibuf := rfl
@[simp] theorem raiseFault_cfg (s : State) (code : Err) : (raiseFault code s).cfg = s.cfg := rfl
@[simp] theorem raiseFault_pending (s : State) (code : Err) : (raiseFault code s).pending = s.pending := rfl
@[simp] theorem raiseFault_replies (s : State) (code : Err) : (raiseFault code s).replies = s.replies := rfl
@[simp] theorem raiseFault_faultMark (s : State) (code : Err) : (raiseFault code s).faultMark = true := rfl
@[simp] theorem raiseFault_acc (s : State) (code : Err) : (raiseFault code s).acc = s.acc := rfl
@[simp] theorem raiseFault_bufSize (s : State) (code : Err) : (raiseFault code s).bufSize = s.bufSize := rfl
@[simp] theorem raiseFault_byteAt (s : State) (code : Err) : (raiseFault code s).byteAt = s.byteAt := rfl

/-! ## clearErr: `ERR <- NONE` -/

@[simp] theorem clearErr_a (s : State) : (clearErr s).a = s.a := rfl
@[simp] theorem clearErr_b (s : State) : (clearErr s).b = s.b := rfl
@[simp] theorem clearErr_c (s : State) : (clearErr s).c = s.c := rfl
@[simp] theorem clearErr_klen (s : State) : (clearErr s).klen = s.klen := rfl
@[simp] theorem clearErr_cursor (s : State) : (clearErr s).cursor = s.cursor := rfl
@[simp] theorem clearErr_rem (s : State) : (clearErr s).rem = s.rem := rfl
@[simp] theorem clearErr_digest (s : State) : (clearErr s).digest = s.digest := rfl
@[simp] theorem clearErr_phase (s : State) : (clearErr s).phase = s.phase := rfl
@[simp] theorem clearErr_err (s : State) : (clearErr s).err = .none := rfl
@[simp] theorem clearErr_len (s : State) : (clearErr s).len = s.len := rfl
@[simp] theorem clearErr_ibuf (s : State) : (clearErr s).ibuf = s.ibuf := rfl
@[simp] theorem clearErr_cfg (s : State) : (clearErr s).cfg = s.cfg := rfl
@[simp] theorem clearErr_pending (s : State) : (clearErr s).pending = s.pending := rfl
@[simp] theorem clearErr_replies (s : State) : (clearErr s).replies = s.replies := rfl
@[simp] theorem clearErr_faultMark (s : State) : (clearErr s).faultMark = s.faultMark := rfl
@[simp] theorem clearErr_acc (s : State) : (clearErr s).acc = s.acc := rfl
@[simp] theorem clearErr_bufSize (s : State) : (clearErr s).bufSize = s.bufSize := rfl
@[simp] theorem clearErr_byteAt (s : State) : (clearErr s).byteAt = s.byteAt := rfl

/-! ## resetBlock: the reset event (R37, R140) -/

@[simp] theorem resetBlock_a (s : State) : (resetBlock s).a = 0 := rfl
@[simp] theorem resetBlock_b (s : State) : (resetBlock s).b = 0 := rfl
@[simp] theorem resetBlock_c (s : State) : (resetBlock s).c = 0 := rfl
@[simp] theorem resetBlock_klen (s : State) : (resetBlock s).klen = 0 := rfl
@[simp] theorem resetBlock_cursor (s : State) : (resetBlock s).cursor = 0 := rfl
@[simp] theorem resetBlock_rem (s : State) : (resetBlock s).rem = 0 := rfl
@[simp] theorem resetBlock_digest (s : State) : (resetBlock s).digest = 0 := rfl
@[simp] theorem resetBlock_phase (s : State) : (resetBlock s).phase = .idle := rfl
@[simp] theorem resetBlock_err (s : State) : (resetBlock s).err = .none := rfl
@[simp] theorem resetBlock_len (s : State) : (resetBlock s).len = 0 := rfl
@[simp] theorem resetBlock_ibuf (s : State) : (resetBlock s).ibuf = s.ibuf := rfl
@[simp] theorem resetBlock_cfg (s : State) : (resetBlock s).cfg = s.cfg := rfl
@[simp] theorem resetBlock_pending (s : State) : (resetBlock s).pending = s.pending := rfl
@[simp] theorem resetBlock_replies (s : State) : (resetBlock s).replies = s.replies := rfl
@[simp] theorem resetBlock_faultMark (s : State) : (resetBlock s).faultMark = s.faultMark := rfl
@[simp] theorem resetBlock_acc (s : State) : (resetBlock s).acc = ⟨0, 0, 0⟩ := rfl
@[simp] theorem resetBlock_bufSize (s : State) : (resetBlock s).bufSize = s.bufSize := rfl
@[simp] theorem resetBlock_byteAt (s : State) : (resetBlock s).byteAt = s.byteAt := rfl

/-! ## startHash: INIT accepted (R90) -/

@[simp] theorem startHash_a (s : State) : (startHash s).a = seedAB := rfl
@[simp] theorem startHash_b (s : State) : (startHash s).b = seedAB := rfl
@[simp] theorem startHash_c (s : State) : (startHash s).c = seedC := rfl
@[simp] theorem startHash_klen (s : State) : (startHash s).klen = s.len := rfl
@[simp] theorem startHash_cursor (s : State) : (startHash s).cursor = 0 := rfl
@[simp] theorem startHash_rem (s : State) : (startHash s).rem = s.len := rfl
@[simp] theorem startHash_digest (s : State) : (startHash s).digest = 0 := rfl
@[simp] theorem startHash_phase (s : State) : (startHash s).phase = .body := rfl
@[simp] theorem startHash_err (s : State) : (startHash s).err = s.err := rfl
@[simp] theorem startHash_len (s : State) : (startHash s).len = s.len := rfl
@[simp] theorem startHash_ibuf (s : State) : (startHash s).ibuf = s.ibuf := rfl
@[simp] theorem startHash_cfg (s : State) : (startHash s).cfg = s.cfg := rfl
@[simp] theorem startHash_pending (s : State) : (startHash s).pending = s.pending := rfl
@[simp] theorem startHash_replies (s : State) : (startHash s).replies = s.replies := rfl
@[simp] theorem startHash_faultMark (s : State) : (startHash s).faultMark = s.faultMark := rfl
@[simp] theorem startHash_acc (s : State) : (startHash s).acc = seeds := rfl
@[simp] theorem startHash_bufSize (s : State) : (startHash s).bufSize = s.bufSize := rfl
@[simp] theorem startHash_byteAt (s : State) : (startHash s).byteAt = s.byteAt := rfl

/-! ## foldBlock: BLOCK accepted (R92) -/

@[simp] theorem foldBlock_a (s : State) : (foldBlock s).a = (mix (addBlock s.byteAt s.cursor.toNat s.acc)).a := rfl
@[simp] theorem foldBlock_b (s : State) : (foldBlock s).b = (mix (addBlock s.byteAt s.cursor.toNat s.acc)).b := rfl
@[simp] theorem foldBlock_c (s : State) : (foldBlock s).c = (mix (addBlock s.byteAt s.cursor.toNat s.acc)).c := rfl
@[simp] theorem foldBlock_klen (s : State) : (foldBlock s).klen = s.klen := rfl
@[simp] theorem foldBlock_cursor (s : State) : (foldBlock s).cursor = s.cursor + 12#32 := rfl
@[simp] theorem foldBlock_rem (s : State) : (foldBlock s).rem = s.rem - 12#32 := rfl
@[simp] theorem foldBlock_digest (s : State) : (foldBlock s).digest = s.digest := rfl
@[simp] theorem foldBlock_phase (s : State) : (foldBlock s).phase = s.phase := rfl
@[simp] theorem foldBlock_err (s : State) : (foldBlock s).err = s.err := rfl
@[simp] theorem foldBlock_len (s : State) : (foldBlock s).len = s.len := rfl
@[simp] theorem foldBlock_ibuf (s : State) : (foldBlock s).ibuf = s.ibuf := rfl
@[simp] theorem foldBlock_cfg (s : State) : (foldBlock s).cfg = s.cfg := rfl
@[simp] theorem foldBlock_pending (s : State) : (foldBlock s).pending = s.pending := rfl
@[simp] theorem foldBlock_replies (s : State) : (foldBlock s).replies = s.replies := rfl
@[simp] theorem foldBlock_faultMark (s : State) : (foldBlock s).faultMark = s.faultMark := rfl
@[simp] theorem foldBlock_acc (s : State) : (foldBlock s).acc = mix (addBlock s.byteAt s.cursor.toNat s.acc) := rfl
@[simp] theorem foldBlock_bufSize (s : State) : (foldBlock s).bufSize = s.bufSize := rfl
@[simp] theorem foldBlock_byteAt (s : State) : (foldBlock s).byteAt = s.byteAt := rfl

/-! ## foldTail: TAIL accepted (R100) -/

@[simp] theorem foldTail_a (s : State) : (foldTail s).a = (cascade tailLines s.tailByte s.rem.toNat (s.acc.addTo .c s.klen)).a := rfl
@[simp] theorem foldTail_b (s : State) : (foldTail s).b = (cascade tailLines s.tailByte s.rem.toNat (s.acc.addTo .c s.klen)).b := rfl
@[simp] theorem foldTail_c (s : State) : (foldTail s).c = (cascade tailLines s.tailByte s.rem.toNat (s.acc.addTo .c s.klen)).c := rfl
@[simp] theorem foldTail_klen (s : State) : (foldTail s).klen = s.klen := rfl
@[simp] theorem foldTail_cursor (s : State) : (foldTail s).cursor = s.cursor := rfl
@[simp] theorem foldTail_rem (s : State) : (foldTail s).rem = s.rem := rfl
@[simp] theorem foldTail_digest (s : State) : (foldTail s).digest = s.digest := rfl
@[simp] theorem foldTail_phase (s : State) : (foldTail s).phase = .tailed := rfl
@[simp] theorem foldTail_err (s : State) : (foldTail s).err = s.err := rfl
@[simp] theorem foldTail_len (s : State) : (foldTail s).len = s.len := rfl
@[simp] theorem foldTail_ibuf (s : State) : (foldTail s).ibuf = s.ibuf := rfl
@[simp] theorem foldTail_cfg (s : State) : (foldTail s).cfg = s.cfg := rfl
@[simp] theorem foldTail_pending (s : State) : (foldTail s).pending = s.pending := rfl
@[simp] theorem foldTail_replies (s : State) : (foldTail s).replies = s.replies := rfl
@[simp] theorem foldTail_faultMark (s : State) : (foldTail s).faultMark = s.faultMark := rfl
@[simp] theorem foldTail_acc (s : State) : (foldTail s).acc = cascade tailLines s.tailByte s.rem.toNat (s.acc.addTo .c s.klen) := rfl
@[simp] theorem foldTail_bufSize (s : State) : (foldTail s).bufSize = s.bufSize := rfl
@[simp] theorem foldTail_byteAt (s : State) : (foldTail s).byteAt = s.byteAt := rfl

/-! ## finishHash: FINAL accepted (R110) -/

@[simp] theorem finishHash_a (s : State) : (finishHash s).a = (mix s.acc).a := rfl
@[simp] theorem finishHash_b (s : State) : (finishHash s).b = (mix s.acc).b := rfl
@[simp] theorem finishHash_c (s : State) : (finishHash s).c = (mix s.acc).c := rfl
@[simp] theorem finishHash_klen (s : State) : (finishHash s).klen = s.klen := rfl
@[simp] theorem finishHash_cursor (s : State) : (finishHash s).cursor = s.cursor := rfl
@[simp] theorem finishHash_rem (s : State) : (finishHash s).rem = s.rem := rfl
@[simp] theorem finishHash_digest (s : State) : (finishHash s).digest = (mix s.acc).c := rfl
@[simp] theorem finishHash_phase (s : State) : (finishHash s).phase = .done := rfl
@[simp] theorem finishHash_err (s : State) : (finishHash s).err = s.err := rfl
@[simp] theorem finishHash_len (s : State) : (finishHash s).len = s.len := rfl
@[simp] theorem finishHash_ibuf (s : State) : (finishHash s).ibuf = s.ibuf := rfl
@[simp] theorem finishHash_cfg (s : State) : (finishHash s).cfg = s.cfg := rfl
@[simp] theorem finishHash_pending (s : State) : (finishHash s).pending = s.pending := rfl
@[simp] theorem finishHash_replies (s : State) : (finishHash s).replies = s.replies := rfl
@[simp] theorem finishHash_faultMark (s : State) : (finishHash s).faultMark = s.faultMark := rfl
@[simp] theorem finishHash_acc (s : State) : (finishHash s).acc = mix s.acc := rfl
@[simp] theorem finishHash_bufSize (s : State) : (finishHash s).bufSize = s.bufSize := rfl
@[simp] theorem finishHash_byteAt (s : State) : (finishHash s).byteAt = s.byteAt := rfl

/-! ## withPending: another list of host events -/

@[simp] theorem State.withPending_a (s : State) (p : List HostEvent) : (s.withPending p).a = s.a := rfl
@[simp] theorem State.withPending_b (s : State) (p : List HostEvent) : (s.withPending p).b = s.b := rfl
@[simp] theorem State.withPending_c (s : State) (p : List HostEvent) : (s.withPending p).c = s.c := rfl
@[simp] theorem State.withPending_klen (s : State) (p : List HostEvent) : (s.withPending p).klen = s.klen := rfl
@[simp] theorem State.withPending_cursor (s : State) (p : List HostEvent) : (s.withPending p).cursor = s.cursor := rfl
@[simp] theorem State.withPending_rem (s : State) (p : List HostEvent) : (s.withPending p).rem = s.rem := rfl
@[simp] theorem State.withPending_digest (s : State) (p : List HostEvent) : (s.withPending p).digest = s.digest := rfl
@[simp] theorem State.withPending_phase (s : State) (p : List HostEvent) : (s.withPending p).phase = s.phase := rfl
@[simp] theorem State.withPending_err (s : State) (p : List HostEvent) : (s.withPending p).err = s.err := rfl
@[simp] theorem State.withPending_len (s : State) (p : List HostEvent) : (s.withPending p).len = s.len := rfl
@[simp] theorem State.withPending_ibuf (s : State) (p : List HostEvent) : (s.withPending p).ibuf = s.ibuf := rfl
@[simp] theorem State.withPending_cfg (s : State) (p : List HostEvent) : (s.withPending p).cfg = s.cfg := rfl
@[simp] theorem State.withPending_pending (s : State) (p : List HostEvent) : (s.withPending p).pending = p := rfl
@[simp] theorem State.withPending_replies (s : State) (p : List HostEvent) : (s.withPending p).replies = s.replies := rfl
@[simp] theorem State.withPending_faultMark (s : State) (p : List HostEvent) : (s.withPending p).faultMark = s.faultMark := rfl
@[simp] theorem State.withPending_acc (s : State) (p : List HostEvent) : (s.withPending p).acc = s.acc := rfl
@[simp] theorem State.withPending_bufSize (s : State) (p : List HostEvent) : (s.withPending p).bufSize = s.bufSize := rfl
@[simp] theorem State.withPending_byteAt (s : State) (p : List HostEvent) : (s.withPending p).byteAt = s.byteAt := rfl
@[simp] theorem State.withPending_twice (s : State) (p q : List HostEvent) :
    (s.withPending p).withPending q = s.withPending q := rfl
@[simp] theorem State.withPending_self (s : State) : s.withPending s.pending = s := rfl

/-! ## push: one more event -/

@[simp] theorem State.push_a (s : State) (e : HostEvent) : (s.push e).a = s.a := rfl
@[simp] theorem State.push_b (s : State) (e : HostEvent) : (s.push e).b = s.b := rfl
@[simp] theorem State.push_c (s : State) (e : HostEvent) : (s.push e).c = s.c := rfl
@[simp] theorem State.push_klen (s : State) (e : HostEvent) : (s.push e).klen = s.klen := rfl
@[simp] theorem State.push_cursor (s : State) (e : HostEvent) : (s.push e).cursor = s.cursor := rfl
@[simp] theorem State.push_rem (s : State) (e : HostEvent) : (s.push e).rem = s.rem := rfl
@[simp] theorem State.push_digest (s : State) (e : HostEvent) : (s.push e).digest = s.digest := rfl
@[simp] theorem State.push_phase (s : State) (e : HostEvent) : (s.push e).phase = s.phase := rfl
@[simp] theorem State.push_err (s : State) (e : HostEvent) : (s.push e).err = s.err := rfl
@[simp] theorem State.push_len (s : State) (e : HostEvent) : (s.push e).len = s.len := rfl
@[simp] theorem State.push_ibuf (s : State) (e : HostEvent) : (s.push e).ibuf = s.ibuf := rfl
@[simp] theorem State.push_cfg (s : State) (e : HostEvent) : (s.push e).cfg = s.cfg := rfl
@[simp] theorem State.push_pending (s : State) (e : HostEvent) : (s.push e).pending = e :: s.pending := rfl
@[simp] theorem State.push_replies (s : State) (e : HostEvent) : (s.push e).replies = s.replies := rfl
@[simp] theorem State.push_faultMark (s : State) (e : HostEvent) : (s.push e).faultMark = s.faultMark := rfl
@[simp] theorem State.push_acc (s : State) (e : HostEvent) : (s.push e).acc = s.acc := rfl
@[simp] theorem State.push_bufSize (s : State) (e : HostEvent) : (s.push e).bufSize = s.bufSize := rfl
@[simp] theorem State.push_byteAt (s : State) (e : HostEvent) : (s.push e).byteAt = s.byteAt := rfl

/-! ## reply: a read's value given back -/

@[simp] theorem reply_a (s : State) (r : Reply) : (reply r s).a = s.a := rfl
@[simp] theorem reply_b (s : State) (r : Reply) : (reply r s).b = s.b := rfl
@[simp] theorem reply_c (s : State) (r : Reply) : (reply r s).c = s.c := rfl
@[simp] theorem reply_klen (s : State) (r : Reply) : (reply r s).klen = s.klen := rfl
@[simp] theorem reply_cursor (s : State) (r : Reply) : (reply r s).cursor = s.cursor := rfl
@[simp] theorem reply_rem (s : State) (r : Reply) : (reply r s).rem = s.rem := rfl
@[simp] theorem reply_digest (s : State) (r : Reply) : (reply r s).digest = s.digest := rfl
@[simp] theorem reply_phase (s : State) (r : Reply) : (reply r s).phase = s.phase := rfl
@[simp] theorem reply_err (s : State) (r : Reply) : (reply r s).err = s.err := rfl
@[simp] theorem reply_len (s : State) (r : Reply) : (reply r s).len = s.len := rfl
@[simp] theorem reply_ibuf (s : State) (r : Reply) : (reply r s).ibuf = s.ibuf := rfl
@[simp] theorem reply_cfg (s : State) (r : Reply) : (reply r s).cfg = s.cfg := rfl
@[simp] theorem reply_pending (s : State) (r : Reply) : (reply r s).pending = s.pending := rfl
@[simp] theorem reply_replies (s : State) (r : Reply) : (reply r s).replies = r :: s.replies := rfl
@[simp] theorem reply_faultMark (s : State) (r : Reply) : (reply r s).faultMark = s.faultMark := rfl
@[simp] theorem reply_acc (s : State) (r : Reply) : (reply r s).acc = s.acc := rfl
@[simp] theorem reply_bufSize (s : State) (r : Reply) : (reply r s).bufSize = s.bufSize := rfl
@[simp] theorem reply_byteAt (s : State) (r : Reply) : (reply r s).byteAt = s.byteAt := rfl

/-! ## pokeByte: one byte of IBUF replaced -/

@[simp] theorem pokeByte_a (s : State) (i : Nat) (v : Byte) : (pokeByte i v s).a = s.a := rfl
@[simp] theorem pokeByte_b (s : State) (i : Nat) (v : Byte) : (pokeByte i v s).b = s.b := rfl
@[simp] theorem pokeByte_c (s : State) (i : Nat) (v : Byte) : (pokeByte i v s).c = s.c := rfl
@[simp] theorem pokeByte_klen (s : State) (i : Nat) (v : Byte) : (pokeByte i v s).klen = s.klen := rfl
@[simp] theorem pokeByte_cursor (s : State) (i : Nat) (v : Byte) : (pokeByte i v s).cursor = s.cursor := rfl
@[simp] theorem pokeByte_rem (s : State) (i : Nat) (v : Byte) : (pokeByte i v s).rem = s.rem := rfl
@[simp] theorem pokeByte_digest (s : State) (i : Nat) (v : Byte) : (pokeByte i v s).digest = s.digest := rfl
@[simp] theorem pokeByte_phase (s : State) (i : Nat) (v : Byte) : (pokeByte i v s).phase = s.phase := rfl
@[simp] theorem pokeByte_err (s : State) (i : Nat) (v : Byte) : (pokeByte i v s).err = s.err := rfl
@[simp] theorem pokeByte_len (s : State) (i : Nat) (v : Byte) : (pokeByte i v s).len = s.len := rfl
@[simp] theorem pokeByte_ibuf (s : State) (i : Nat) (v : Byte) : (pokeByte i v s).ibuf = Memory.write s.ibuf i v := rfl
@[simp] theorem pokeByte_cfg (s : State) (i : Nat) (v : Byte) : (pokeByte i v s).cfg = s.cfg := rfl
@[simp] theorem pokeByte_pending (s : State) (i : Nat) (v : Byte) : (pokeByte i v s).pending = s.pending := rfl
@[simp] theorem pokeByte_replies (s : State) (i : Nat) (v : Byte) : (pokeByte i v s).replies = s.replies := rfl
@[simp] theorem pokeByte_faultMark (s : State) (i : Nat) (v : Byte) : (pokeByte i v s).faultMark = s.faultMark := rfl
@[simp] theorem pokeByte_acc (s : State) (i : Nat) (v : Byte) : (pokeByte i v s).acc = s.acc := rfl
@[simp] theorem pokeByte_bufSize (s : State) (i : Nat) (v : Byte) : (pokeByte i v s).bufSize = s.bufSize := rfl

end Sys2Proof.Machine
end

