-- ==== Sys2Proof/Laws/Diffuser.lean ====
section
/-! SUPPORT. The diffuser row by row, and the accumulators' additions. -/

namespace Sys2Proof.Machine

@[simp] theorem unrowValue_rowValue (sh : Shift) (x y z : Word) : unrowValue sh (rowValue sh x y z) y z = x := by
  simp [unrowValue, rowValue]

@[simp] theorem rowValue_unrowValue (sh : Shift) (x y z : Word) : rowValue sh (unrowValue sh x y z) y z = x := by
  simp [unrowValue, rowValue]

/-- A row undone gives the triple back. -/
@[simp] theorem undoRow_applyRow (t : Triple) (r : MixRow) : undoRow (applyRow t r) r = t := by
  obtain ⟨target, sh⟩ := r
  cases target <;> simp [undoRow, applyRow]

/-- A row done again gives the triple back. -/
@[simp] theorem applyRow_undoRow (t : Triple) (r : MixRow) : applyRow (undoRow t r) r = t := by
  obtain ⟨target, sh⟩ := r
  cases target <;> simp [undoRow, applyRow]

@[simp] theorem addTo_a (t : Triple) (x : Word) : t.addTo .a x = ⟨t.a + x, t.b, t.c⟩ := rfl
@[simp] theorem addTo_b (t : Triple) (x : Word) : t.addTo .b x = ⟨t.a, t.b + x, t.c⟩ := rfl
@[simp] theorem addTo_c (t : Triple) (x : Word) : t.addTo .c x = ⟨t.a, t.b, t.c + x⟩ := rfl

/-- Additions into the accumulators commute (R103). -/
theorem addTo_comm (t : Triple) (p q : Acc) (x y : Word) : (t.addTo p x).addTo q y = (t.addTo q y).addTo p x := by
  cases p <;> cases q <;> simp [BitVec.add_assoc, BitVec.add_comm x y]

/-- Two lines of the cascade commute (R103). -/
theorem applyTailLine_comm (k : Nat → Byte) (r : Nat) (t : Triple) (l m : TailLine) :
    applyTailLine k r (applyTailLine k r t l) m = applyTailLine k r (applyTailLine k r t m) l := by
  unfold applyTailLine
  split <;> split <;> first | rfl | exact addTo_comm ..

/-- A cascade depends only on the bytes whose line acts. -/
theorem cascade_congr (lines : List TailLine) {k k' : Nat → Byte} {r : Nat} (t : Triple)
    (h : ∀ l ∈ lines, l.threshold ≤ r → k l.index = k' l.index) : cascade lines k r t = cascade lines k' r t := by
  induction lines generalizing t with
  | nil => rfl
  | cons l ls ih =>
    have hl : applyTailLine k r t l = applyTailLine k' r t l := by
      unfold applyTailLine
      split
      · rw [h l (by simp) (by assumption)]
      · rfl
    simp only [cascade, List.foldl_cons, hl]
    exact ih _ fun m hm => h m (by simp [hm])

/-- A packed word depends only on its four bytes. -/
theorem le32_congr {k k' : Nat → Byte} {i : Nat} (h : ∀ j, i ≤ j → j < i + 4 → k j = k' j) : le32 k i = le32 k' i := by
  simp only [le32, h i (by omega) (by omega), h (i + 1) (by omega) (by omega), h (i + 2) (by omega) (by omega),
    h (i + 3) (by omega) (by omega)]

/-- The words of a block depend only on its twelve bytes. -/
theorem addBlock_congr {k k' : Nat → Byte} {i : Nat} (t : Triple) (h : ∀ j, i ≤ j → j < i + 12 → k j = k' j) :
    addBlock k i t = addBlock k' i t := by
  simp only [addBlock, le32_congr (k := k) (k' := k') (i := i) fun j _ _ => h j (by omega) (by omega),
    le32_congr (k := k) (k' := k') (i := i + 4) fun j _ _ => h j (by omega) (by omega),
    le32_congr (k := k) (k' := k') (i := i + 8) fun j _ _ => h j (by omega) (by omega)]

end Sys2Proof.Machine
end

