-- ==== Sys2Proof/Laws/Commands.lean ====
section
/-! SUPPORT. What each command can do, once each: the accepted, the refused and the ignored case, and the inversion of exec that
the statements over all commands start from. -/

namespace Sys2Proof.Machine

@[simp] theorem andThen_next (s : State) (f : State → Result) : andThen (.next s) f = f s := rfl
@[simp] theorem andThen_fault (x : Fault) (f : State → Result) : andThen (.fault x) f = .fault x := rfl
@[simp] theorem andThen_refused (x : Refusal) (f : State → Result) : andThen (.refused x) f = .refused x := rfl

@[simp] theorem exec_init (s : State) : exec .init s = .next (performInit s) := rfl
@[simp] theorem exec_block (s : State) : exec .block s = performBlock s := rfl
@[simp] theorem exec_tail (s : State) : exec .tail s = performTail s := rfl
@[simp] theorem exec_final (s : State) : exec .final s = performFinal s := rfl
@[simp] theorem exec_run (s : State) : exec .run s = performRun s := rfl

/-! ## The checks as propositions -/

theorem lenFits_iff (s : State) : s.lenFits = true ↔ s.len.toNat ≤ s.bufSize := by simp [State.lenFits]
theorem blockLegal_iff (s : State) : s.blockLegal = true ↔ s.phase = .body ∧ 12 ≤ s.rem.toNat := by
  simp [State.blockLegal]
theorem tailLegal_iff (s : State) : s.tailLegal = true ↔ s.phase = .body ∧ s.rem.toNat ≤ 11 := by
  simp [State.tailLegal]
theorem finalLegal_iff (s : State) : s.finalLegal = true ↔ s.phase = .tailed := by simp [State.finalLegal]
theorem holdsRange_iff (s : State) (i n : Nat) : s.holdsRange i n = true ↔ n = 0 ∨ i + n ≤ s.bufSize := by
  simp [State.holdsRange]

/-! ## INIT -/

/-- INIT accepted. -/
theorem performInit_fits {s : State} (h : s.len.toNat ≤ s.bufSize) : performInit s = startHash (clearErr s) := by
  rw [performInit, if_pos (by simpa [lenFits_iff] using h)]

/-- INIT refused. -/
theorem performInit_exceeds {s : State} (h : s.bufSize < s.len.toNat) :
    performInit s = raiseFault .bounds (clearErr s) := by
  rw [performInit, if_neg (by simpa [lenFits_iff] using h)]

/-- Everything INIT can do. -/
theorem performInit_cases (s : State) :
    (s.len.toNat ≤ s.bufSize ∧ performInit s = startHash (clearErr s)) ∨
    (s.bufSize < s.len.toNat ∧ performInit s = raiseFault .bounds (clearErr s)) := by
  rcases Nat.lt_or_ge s.bufSize s.len.toNat with h | h
  · exact .inr ⟨h, performInit_exceeds h⟩
  · exact .inl ⟨h, performInit_fits h⟩

/-! ## BLOCK, TAIL and FINAL -/

/-- Ignored in FAULT (R126). -/
theorem performBlock_fault {s : State} (h : s.phase = .fault) : performBlock s = .next s := by simp [performBlock, h]
theorem performTail_fault {s : State} (h : s.phase = .fault) : performTail s = .next s := by simp [performTail, h]
theorem performFinal_fault {s : State} (h : s.phase = .fault) : performFinal s = .next s := by simp [performFinal, h]

/-- Out of order (R124). -/
theorem performBlock_sequence {s : State} (h : s.phase ≠ .fault) (hl : s.blockLegal = false) :
    performBlock s = .next (raiseFault .sequence s) := by simp [performBlock, h, hl]
theorem performTail_sequence {s : State} (h : s.phase ≠ .fault) (hl : s.tailLegal = false) :
    performTail s = .next (raiseFault .sequence s) := by simp [performTail, h, hl]
theorem performFinal_sequence {s : State} (h : s.phase ≠ .fault) (hl : s.finalLegal = false) :
    performFinal s = .next (raiseFault .sequence s) := by simp [performFinal, h, hl]

/-- Accepted. -/
theorem performBlock_ok {s : State} (hp : s.phase = .body) (hr : 12 ≤ s.rem.toNat)
    (hb : s.cursor.toNat + 12 ≤ s.bufSize) : performBlock s = .next (foldBlock s) := by
  simp [performBlock, State.blockLegal, State.holdsRange, blockBytes, hp, hr, hb]
theorem performTail_ok {s : State} (hp : s.phase = .body) (hr : s.rem.toNat ≤ 11)
    (hb : s.rem.toNat = 0 ∨ s.cursor.toNat + s.rem.toNat ≤ s.bufSize) : performTail s = .next (foldTail s) := by
  rw [performTail, if_neg (by simp [hp]), if_pos ((tailLegal_iff s).2 ⟨hp, hr⟩), if_pos ((holdsRange_iff ..).2 hb)]
theorem performFinal_ok {s : State} (hp : s.phase = .tailed) : performFinal s = .next (finishHash s) := by
  simp [performFinal, State.finalLegal, hp]

/-- Everything BLOCK can do. -/
theorem performBlock_cases (s : State) :
    (s.phase = .fault ∧ performBlock s = .next s) ∨
    (s.phase ≠ .fault ∧ s.blockLegal = false ∧ performBlock s = .next (raiseFault .sequence s)) ∨
    (s.phase = .body ∧ 12 ≤ s.rem.toNat ∧ s.cursor.toNat + 12 ≤ s.bufSize ∧ performBlock s = .next (foldBlock s)) ∨
    (s.phase = .body ∧ 12 ≤ s.rem.toNat ∧ s.bufSize < s.cursor.toNat + 12 ∧
      performBlock s = .fault .ibufReadPastEnd) := by
  by_cases h : s.phase = .fault
  · exact .inl ⟨h, performBlock_fault h⟩
  · cases hl : s.blockLegal
    · exact .inr (.inl ⟨h, rfl, performBlock_sequence h hl⟩)
    · obtain ⟨hp, hr⟩ := (blockLegal_iff s).1 hl
      by_cases hb : s.cursor.toNat + 12 ≤ s.bufSize
      · exact .inr (.inr (.inl ⟨hp, hr, hb, performBlock_ok hp hr hb⟩))
      · refine .inr (.inr (.inr ⟨hp, hr, by omega, ?_⟩))
        simp [performBlock, hp, hl, State.holdsRange, blockBytes, hb]

/-- Everything TAIL can do. -/
theorem performTail_cases (s : State) :
    (s.phase = .fault ∧ performTail s = .next s) ∨
    (s.phase ≠ .fault ∧ s.tailLegal = false ∧ performTail s = .next (raiseFault .sequence s)) ∨
    (s.phase = .body ∧ s.rem.toNat ≤ 11 ∧ (s.rem.toNat = 0 ∨ s.cursor.toNat + s.rem.toNat ≤ s.bufSize) ∧
      performTail s = .next (foldTail s)) ∨
    (s.phase = .body ∧ 1 ≤ s.rem.toNat ∧ s.rem.toNat ≤ 11 ∧ s.bufSize < s.cursor.toNat + s.rem.toNat ∧
      performTail s = .fault .ibufReadPastEnd) := by
  by_cases h : s.phase = .fault
  · exact .inl ⟨h, performTail_fault h⟩
  · cases hl : s.tailLegal
    · exact .inr (.inl ⟨h, rfl, performTail_sequence h hl⟩)
    · obtain ⟨hp, hr⟩ := (tailLegal_iff s).1 hl
      by_cases hb : s.rem.toNat = 0 ∨ s.cursor.toNat + s.rem.toNat ≤ s.bufSize
      · exact .inr (.inr (.inl ⟨hp, hr, hb, performTail_ok hp hr hb⟩))
      · refine .inr (.inr (.inr ⟨hp, by omega, hr, by omega, ?_⟩))
        rw [performTail, if_neg h, if_pos hl, if_neg (by rwa [holdsRange_iff])]

/-- Everything FINAL can do. -/
theorem performFinal_cases (s : State) :
    (s.phase = .fault ∧ performFinal s = .next s) ∨
    (s.phase ≠ .fault ∧ s.finalLegal = false ∧ performFinal s = .next (raiseFault .sequence s)) ∨
    (s.phase = .tailed ∧ performFinal s = .next (finishHash s)) := by
  by_cases h : s.phase = .fault
  · exact .inl ⟨h, performFinal_fault h⟩
  · cases hl : s.finalLegal
    · exact .inr (.inl ⟨h, rfl, performFinal_sequence h hl⟩)
    · have hp := (finalLegal_iff s).1 hl
      exact .inr (.inr ⟨hp, performFinal_ok hp⟩)

/-! ## RUN -/

@[simp] theorem blockLoop_zero (s : State) : blockLoop 0 s = .next s := rfl

theorem blockLoop_done (n : Nat) {s : State} (h : s.rem.toNat < 12) : blockLoop n s = .next s := by
  cases n with
  | zero => rfl
  | succ n => rw [blockLoop, if_neg (by omega)]

theorem blockLoop_again (n : Nat) {s : State} (hp : s.phase = .body) (hr : 12 ≤ s.rem.toNat)
    (hb : s.cursor.toNat + 12 ≤ s.bufSize) : blockLoop (n + 1) s = blockLoop n (foldBlock s) := by
  rw [blockLoop, if_pos hr, performBlock_ok hp hr hb, andThen_next]

/-- RUN with a length that does not fit. -/
theorem performRun_exceeds {s : State} (h : s.bufSize < s.len.toNat) :
    performRun s = .next (raiseFault .bounds (clearErr s)) := by
  simp [performRun, performInit_exceeds h]

/-- RUN with a length that fits: the loop, TAIL and FINAL from the started hash. -/
theorem performRun_fits {s : State} (h : s.len.toNat ≤ s.bufSize) :
    performRun s = andThen (blockLoop (s.len.toNat / 12) (startHash (clearErr s))) fun t =>
      andThen (performTail t) performFinal := by
  simp [performRun, performInit_fits h, blockBytes]

/-! ## Every command -/

/-- Everything a command that goes on can do, guards included. RUN with a length that fits is `performRun_fits`. -/
theorem exec_next_cases {i : Instr} {s t : State} (h : exec i s = .next t) :
    (i ≠ .init ∧ i ≠ .run ∧ s.phase = .fault ∧ t = s) ∨
    (i ≠ .init ∧ i ≠ .run ∧ s.phase ≠ .fault ∧ legal i s = false ∧ t = raiseFault .sequence s) ∨
    ((i = .init ∨ i = .run) ∧ s.bufSize < s.len.toNat ∧ t = raiseFault .bounds (clearErr s)) ∨
    (i = .init ∧ s.len.toNat ≤ s.bufSize ∧ t = startHash (clearErr s)) ∨
    (i = .block ∧ s.phase = .body ∧ 12 ≤ s.rem.toNat ∧ s.cursor.toNat + 12 ≤ s.bufSize ∧ t = foldBlock s) ∨
    (i = .tail ∧ s.phase = .body ∧ s.rem.toNat ≤ 11 ∧ (s.rem.toNat = 0 ∨ s.cursor.toNat + s.rem.toNat ≤ s.bufSize) ∧ t = foldTail s) ∨
    (i = .final ∧ s.phase = .tailed ∧ t = finishHash s) ∨
    (i = .run ∧ s.len.toNat ≤ s.bufSize) := by
  cases i with
  | init =>
    cases h
    rcases performInit_cases s with ⟨hl, he⟩ | ⟨hl, he⟩ <;> simp [he, hl]
  | block =>
    rw [exec_block] at h
    rcases performBlock_cases s with ⟨hp, he⟩ | ⟨hp, hl, he⟩ | ⟨hp, hr, hb, he⟩ | ⟨hp, hr, hb, he⟩ <;>
      rw [he] at h <;> cases h <;> simp_all [legal]
  | tail =>
    rw [exec_tail] at h
    rcases performTail_cases s with ⟨hp, he⟩ | ⟨hp, hl, he⟩ | ⟨hp, hr, hb, he⟩ | ⟨hp, hr, hr', hb, he⟩ <;>
      rw [he] at h <;> cases h <;> simp_all [legal]
  | final =>
    rw [exec_final] at h
    rcases performFinal_cases s with ⟨hp, he⟩ | ⟨hp, hl, he⟩ | ⟨hp, he⟩ <;>
      rw [he] at h <;> cases h <;> simp_all [legal]
  | run =>
    rcases Nat.lt_or_ge s.bufSize s.len.toNat with hl | hl
    · rw [exec_run, performRun_exceeds hl] at h; cases h; simp [hl]
    · simp [hl]

/-! ## Counters of a block -/

/-- BLOCK's counters, in a state whose counters lie within KLEN. -/
theorem foldBlock_counters {s : State} (hr : 12 ≤ s.rem.toNat) (hc : s.cursor.toNat + s.rem.toNat = s.klen.toNat) :
    (foldBlock s).cursor.toNat = s.cursor.toNat + 12 ∧ (foldBlock s).rem.toNat = s.rem.toNat - 12 := by
  have := s.klen.isLt
  constructor
  · rw [foldBlock_cursor, BitVec.toNat_add]
    simp
    omega
  · rw [foldBlock_rem, BitVec.toNat_sub_of_le (by rw [BitVec.le_def]; simpa using hr)]
    rfl

end Sys2Proof.Machine
end

