-- ==== Sys2Proof/Laws/Decode.lean ====
section
/-! SUPPORT. The fields of a CMD word and the opcode map. -/

namespace Sys2Proof

/-- Cutting a word made of two fields gives the fields. -/
@[simp] theorem Cmd32.ofWord_toWord (c : Cmd32) : Cmd32.ofWord c.toWord = c := by
  obtain ⟨op, rsv⟩ := c
  simp only [Cmd32.ofWord, Cmd32.toWord, Cmd32.mk.injEq]
  constructor
  · ext i hi
    have h : (rsv ++ op).getLsbD i = op.getLsbD i := by rw [BitVec.getLsbD_append, if_pos hi]
    simpa [BitVec.getLsbD_eq_getElem hi] using h
  · ext i hi
    have h : (rsv ++ op).getLsbD (4 + i) = rsv.getLsbD i := by
      rw [BitVec.getLsbD_append, if_neg (by omega), Nat.add_sub_cancel_left]
    simpa [BitVec.getLsbD_eq_getElem hi] using h

/-- The two fields of a word make the word. -/
@[simp] theorem Cmd32.toWord_ofWord (w : Word) : (Cmd32.ofWord w).toWord = w := by
  simp only [Cmd32.ofWord, Cmd32.toWord]
  ext i hi
  simp only [BitVec.getElem_append, BitVec.getElem_extractLsb']
  split
  · simp [BitVec.getLsbD_eq_getElem hi]
  · have : 4 + (i - 4) = i := by omega
    simp [this, BitVec.getLsbD_eq_getElem hi]

/-- The opcode map is the inverse of the OP values. -/
theorem opcodeOf_eq_ok (op : BitVec 4) (i : Instr) : opcodeOf op = .ok i ↔ op = opOf i := by
  revert op
  cases i <;> decide

/-- Every command is well formed as syntax. -/
theorem Instr.wf_true (i : Instr) : i.wf = true := by cases i <;> rfl

end Sys2Proof
end

