-- ==== Sys2Proof/Laws/Hash.lean ====
section
/-! SUPPORT. HASH (spec/43_final.md R113): what it depends on, its loop from the other end, and the two orders of the tail. -/

namespace Sys2Proof.Machine

/-- BLOCK's new triple is HASH's round. -/
theorem mix_addBlock (k : Nat → Byte) (i : Nat) (t : Triple) : mix (addBlock k i t) = hashBlock k i t := rfl

theorem hashBlock_congr {k k' : Nat → Byte} {i : Nat} (t : Triple) (h : ∀ j, i ≤ j → j < i + 12 → k j = k' j) :
    hashBlock k i t = hashBlock k' i t := by
  rw [← mix_addBlock, ← mix_addBlock, addBlock_congr t h]

/-- One more round at the end of the loop. -/
theorem hashLoop_succ (k : Nat → Byte) (n : Nat) : ∀ (i : Nat) (t : Triple),
    hashLoop k (n + 1) i t = hashBlock k (i + 12 * n) (hashLoop k n i t) := by
  induction n with
  | zero => intro i t; rfl
  | succ n ih =>
    intro i t
    have h : i + 12 + 12 * n = i + 12 * (n + 1) := by omega
    rw [hashLoop, ih (i + 12), h]
    rfl

/-- The loop depends only on the bytes of its blocks. -/
theorem hashLoop_congr {k k' : Nat → Byte} (n : Nat) : ∀ (i : Nat) (t : Triple),
    (∀ j, i ≤ j → j < i + 12 * n → k j = k' j) → hashLoop k n i t = hashLoop k' n i t := by
  induction n with
  | zero => intro i t _; rfl
  | succ n ih =>
    intro i t h
    rw [hashLoop, hashLoop, hashBlock_congr t fun j _ _ => h j (by omega) (by omega)]
    exact ih _ _ fun j _ _ => h j (by omega) (by omega)

theorem hashTailByte_congr {k k' : Nat → Byte} {i j : Nat} (t : Triple) (h : k (i + j) = k' (i + j)) :
    hashTailByte k i t j = hashTailByte k' i t j := by simp only [hashTailByte, h]

theorem hashTail_congr {k k' : Nat → Byte} {i : Nat} (js : List Nat) : ∀ (t : Triple),
    (∀ j ∈ js, k (i + j) = k' (i + j)) → js.foldl (hashTailByte k i) t = js.foldl (hashTailByte k' i) t := by
  induction js with
  | nil => intro t _; rfl
  | cons j js ih =>
    intro t h
    rw [List.foldl_cons, List.foldl_cons, hashTailByte_congr t (h j (by simp))]
    exact ih _ fun x hx => h x (by simp [hx])

/-- HASH before its last MIX depends only on the bytes below `n`. -/
theorem hashBeforeMix_congr {k k' : Nat → Byte} {n : Nat} (h : ∀ i, i < n → k i = k' i) :
    hashBeforeMix k n = hashBeforeMix k' n := by
  have hloop : hashLoop k (n / 12) 0 seeds = hashLoop k' (n / 12) 0 seeds :=
    hashLoop_congr _ _ _ fun j _ _ => h j (by omega)
  simp only [hashBeforeMix, hloop]
  refine hashTail_congr _ _ fun j hj => h _ ?_
  have := List.mem_range.1 hj
  omega

theorem hashTriple_congr {k k' : Nat → Byte} {n : Nat} (h : ∀ i, i < n → k i = k' i) :
    hashTriple k n = hashTriple k' n := by rw [hashTriple, hashTriple, hashBeforeMix_congr h]

theorem hashFn_congr {k k' : Nat → Byte} {n : Nat} (h : ∀ i, i < n → k i = k' i) : hashFn k n = hashFn k' n := by
  rw [hashFn, hashFn, hashTriple_congr h]

/-- The cascade with its lines lowest byte first. -/
theorem cascade_reverse (k : Nat → Byte) (r : Nat) (t : Triple) :
    cascade tailLines k r t = cascade tailLines.reverse k r t :=
  (List.reverse_perm tailLines).symm.foldl_eq' (fun l _ m _ u => applyTailLine_comm k r u l m) t

/-- The cascade of R100, highest byte first, gives what HASH's ascending loop gives (R103, R113). -/
theorem cascade_eq_ascending (k : Nat → Byte) (i r : Nat) (t : Triple) (hr : r ≤ 11) :
    cascade tailLines (fun j => k (i + j)) r t = (List.range r).foldl (hashTailByte k i) t := by
  have hcases : r = 0 ∨ r = 1 ∨ r = 2 ∨ r = 3 ∨ r = 4 ∨ r = 5 ∨ r = 6 ∨ r = 7 ∨ r = 8 ∨ r = 9 ∨ r = 10 ∨ r = 11 := by
    omega
  rw [cascade_reverse]
  rcases hcases with rfl | rfl | rfl | rfl | rfl | rfl | rfl | rfl | rfl | rfl | rfl | rfl <;> rfl

/-- The loop of R112 from a state whose counters lie within the buffer: HASH's rounds, the counters of R94, and nothing else
changed; more rounds than `floor(REM / 12)` change nothing. -/
theorem blockLoop_runs (n : Nat) : ∀ s : State, s.phase = .body → n = s.rem.toNat / 12 → s.countersOk →
    s.acc = hashLoop s.byteAt (s.cursor.toNat / 12) 0 seeds →
    ∃ u, (∀ m, n ≤ m → blockLoop m s = .next u) ∧ u.acc = hashLoop s.byteAt (s.cursor.toNat / 12 + n) 0 seeds ∧
      u.cursor.toNat = s.cursor.toNat + 12 * n ∧ u.rem.toNat = s.rem.toNat % 12 ∧
      { u with a := s.a, b := s.b, c := s.c, cursor := s.cursor, rem := s.rem } = s := by
  induction n with
  | zero =>
    intro s _ hn _ ha
    exact ⟨s, fun m _ => blockLoop_done m (by omega), by simpa using ha, by omega, by omega, rfl⟩
  | succ n ih =>
    intro s hp hn ⟨hc, h12, hk⟩ ha
    have hr : 12 ≤ s.rem.toNat := by omega
    obtain ⟨hcur, hrem⟩ := foldBlock_counters hr hc
    have hdiv : (foldBlock s).cursor.toNat / 12 = s.cursor.toNat / 12 + 1 := by omega
    have hidx : 0 + 12 * (s.cursor.toNat / 12) = s.cursor.toNat := by omega
    obtain ⟨u, hloop, hacc, h1, h2, hrest⟩ := ih (foldBlock s) hp (by omega)
      ⟨by simp only [foldBlock_klen]; omega, by omega, hk⟩
      (by rw [hdiv, foldBlock_byteAt, hashLoop_succ, hidx, ← ha]; rfl)
    refine ⟨u, fun m hm => ?_, ?_, by omega, by omega, ?_⟩
    · obtain ⟨m, rfl⟩ : ∃ k, m = k + 1 := ⟨m - 1, by omega⟩
      rw [blockLoop_again m hp hr (by omega), hloop m (by omega)]
    · rw [hacc, foldBlock_byteAt]
      congr 1
      omega
    · have h := congrArg (fun v : State => { v with a := s.a, b := s.b, c := s.c, cursor := s.cursor, rem := s.rem }) hrest
      exact h

end Sys2Proof.Machine
end

