-- ==== Sys2Proof/Laws/Memory.lean ====
section
/-! SUPPORT. IBUF as canonical data: what a write does to every read, and that every memory operation keeps the form. -/

namespace Sys2Proof.Machine

/-- A memory that starts at `lo` reads as unlisted below `lo`. -/
theorem Memory.read_below_start : ∀ {m : Memory} {lo i : Nat}, Memory.wfFrom lo m = true → i < lo →
    Memory.read m i = Memory.unlisted
  | [], _, _, _, _ => rfl
  | (k, v) :: m, lo, i, h, hi => by
    simp only [Memory.wfFrom, Bool.and_eq_true, decide_eq_true_eq] at h
    have hne : i ≠ k := by omega
    simpa [Memory.read, hne] using Memory.read_below_start h.2 (by omega)

/-- A lower start is weaker. -/
theorem Memory.wfFrom_mono : ∀ {m : Memory} {lo lo' : Nat}, Memory.wfFrom lo m = true → lo' ≤ lo →
    Memory.wfFrom lo' m = true
  | [], _, _, _, _ => rfl
  | (k, v) :: m, lo, lo', h, hl => by
    simp only [Memory.wfFrom, Bool.and_eq_true, decide_eq_true_eq] at h ⊢
    exact ⟨⟨by omega, h.1.2⟩, h.2⟩

theorem Memory.write_wfFrom : ∀ {m : Memory} {lo i : Nat} {v : Byte}, Memory.wfFrom lo m = true → lo ≤ i →
    Memory.wfFrom lo (Memory.write m i v) = true
  | [], lo, i, v, _, hi => by
    unfold Memory.write
    split <;> simp_all [Memory.wfFrom]
  | (k, w) :: m, lo, i, v, h, hi => by
    have h' := h
    simp only [Memory.wfFrom, Bool.and_eq_true, decide_eq_true_eq] at h'
    obtain ⟨⟨hlo, hw⟩, hm⟩ := h'
    unfold Memory.write
    split
    · split
      · exact h
      · simp only [Memory.wfFrom, Bool.and_eq_true, decide_eq_true_eq]
        exact ⟨⟨hi, by assumption⟩, ⟨by omega, hw⟩, hm⟩
    · split
      · split
        · exact Memory.wfFrom_mono hm (by omega)
        · simp only [Memory.wfFrom, Bool.and_eq_true, decide_eq_true_eq]
          exact ⟨⟨hlo, by assumption⟩, hm⟩
      · simp only [Memory.wfFrom, Bool.and_eq_true, decide_eq_true_eq]
        exact ⟨⟨hlo, hw⟩, Memory.write_wfFrom hm (by omega)⟩

/-- A write keeps the canonical form. -/
theorem Memory.write_wf {m : Memory} (i : Nat) (v : Byte) (h : Memory.wf m = true) :
    Memory.wf (Memory.write m i v) = true :=
  Memory.write_wfFrom h (Nat.zero_le i)

theorem Memory.read_write_from : ∀ {m : Memory} {lo : Nat} (i : Nat) (v : Byte) (j : Nat), Memory.wfFrom lo m = true →
    Memory.read (Memory.write m i v) j = if j = i then v else Memory.read m j
  | [], lo, i, v, j, _ => by
    unfold Memory.write
    split <;> split <;> simp_all [Memory.read]
  | (k, w) :: m, lo, i, v, j, h => by
    have h' := h
    simp only [Memory.wfFrom, Bool.and_eq_true, decide_eq_true_eq] at h'
    obtain ⟨⟨_, _⟩, hm⟩ := h'
    have hlow : ∀ x, x ≤ k → Memory.read m x = Memory.unlisted := fun x hx =>
      Memory.read_below_start hm (by omega)
    unfold Memory.write
    split
    · have := hlow i (by omega)
      split <;> by_cases hj : j = i <;> simp_all [Memory.read] <;> omega
    · split
      · have := hlow i (by omega)
        split <;> by_cases hj : j = i <;> simp_all [Memory.read]
      · have ih := Memory.read_write_from i v j hm
        by_cases hj : j = i
        · subst hj
          have hjk : j ≠ k := by omega
          simpa [Memory.read, hjk] using ih
        · by_cases hjk : j = k <;> simp_all [Memory.read]

/-- What a write does to every read: the byte written at its own index, everything else as before. -/
theorem Memory.read_write {m : Memory} (i : Nat) (v : Byte) (j : Nat) (h : Memory.wf m = true) :
    Memory.read (Memory.write m i v) j = if j = i then v else Memory.read m j :=
  Memory.read_write_from i v j h

/-- A write below `n` keeps every listed index below `n`. -/
theorem Memory.write_below : ∀ {m : Memory} {n i : Nat} {v : Byte}, Memory.below m n = true → i < n →
    Memory.below (Memory.write m i v) n = true
  | [], n, i, v, _, hi => by
    unfold Memory.write
    split <;> simp_all [Memory.below]
  | (k, w) :: m, n, i, v, h, hi => by
    simp only [Memory.below, List.all_cons, Bool.and_eq_true, decide_eq_true_eq] at h
    have ih : Memory.below (Memory.write m i v) n = true := Memory.write_below (by simpa [Memory.below] using h.2) hi
    simp only [Memory.below] at ih
    unfold Memory.write
    split
    · split <;> simp [Memory.below, h.1, hi] <;> simpa using h.2
    · split
      · split <;> simp [Memory.below, h.1] <;> simpa using h.2
      · simp only [Memory.below, List.all_cons, Bool.and_eq_true, decide_eq_true_eq]
        exact ⟨h.1, ih⟩

/-- The reset state's IBUF is canonical. -/
theorem reset_ibuf_wf : Memory.wf State.reset.ibuf = true := rfl

/-- A host write to IBUF, read back at every index. -/
theorem pokeByte_byteAt {s : State} (i : Nat) (v : Byte) (j : Nat) (h : Memory.wf s.ibuf = true) :
    (pokeByte i v s).byteAt j = if j = i then v else s.byteAt j :=
  Memory.read_write i v j h

end Sys2Proof.Machine
end

