-- ==== Sys2Proof/Laws/PerInstr.lean ====
section
/-! SUPPORT. Statements about every command as syntax, one lemma a constructor. -/

namespace Sys2Proof.Laws.EncodesWellFormed

/-- A command's word passes the checks of the format CMD32 (spec/30_encoding.md R60, R63), and it is well formed as syntax
(R61). -/
def Statement (i : Instr) : Prop := (Cmd32.ofWord (encode i)).wf = true ∧ i.wf = true

theorem init : Statement .init := ⟨by decide, rfl⟩
theorem block : Statement .block := ⟨by decide, rfl⟩
theorem tail : Statement .tail := ⟨by decide, rfl⟩
theorem final : Statement .final := ⟨by decide, rfl⟩
theorem run : Statement .run := ⟨by decide, rfl⟩

end Sys2Proof.Laws.EncodesWellFormed
end

