-- ==== Sys2Proof/Laws/Port.lean ====
section
/-! SUPPORT. What a step can do: the register window's and IBUF's checks turned round, a CMD write, and runs of several steps. -/

namespace Sys2Proof.Machine

/-! ## The window and IBUF -/

/-- An access that passes the window's checks. -/
theorem windowAccess_at {s : State} {off : Nat} (f : Nat → Result) (hoff : off < 0x40) (h4 : off % 4 = 0) :
    windowAccess 32 (s.cfg.regBase + off) s f = f off := by
  simp [windowAccess, hoff, h4]

/-- Everything a window access that goes on says of the access. -/
theorem windowAccess_next {bits addr : Nat} {s t : State} {f : Nat → Result} (h : windowAccess bits addr s f = .next t) :
    ∃ off, bits = 32 ∧ addr = s.cfg.regBase + off ∧ off < 0x40 ∧ off % 4 = 0 ∧ f off = .next t := by
  unfold windowAccess at h
  split at h
  · rename_i hin
    split at h
    · cases h
    · rename_i hb
      split at h
      · cases h
      · exact ⟨addr - s.cfg.regBase, by omega, by omega, by omega, by omega, h⟩
  · cases h

theorem ibufAccess_at {s : State} {i : Nat} (f : Nat → Result) (hi : i < s.bufSize) :
    ibufAccess (s.cfg.ibufBase + i) s f = f i := by
  simp [ibufAccess, hi]

/-- Everything an IBUF access that goes on says of the access. -/
theorem ibufAccess_next {addr : Nat} {s t : State} {f : Nat → Result} (h : ibufAccess addr s f = .next t) :
    ∃ i, addr = s.cfg.ibufBase + i ∧ i < s.bufSize ∧ f i = .next t := by
  unfold ibufAccess at h
  split at h
  · exact ⟨addr - s.cfg.ibufBase, by omega, by omega, h⟩
  · cases h

@[simp] theorem regAt_cmd : regAt 0 = some .cmd := rfl
@[simp] theorem regAt_len : regAt 4 = some .len := rfl

/-- Only offset 0 is CMD. -/
theorem regAt_eq_cmd {off : Nat} (h : regAt off = some .cmd) : off = 0 := by
  unfold regAt at h
  repeat' split at h
  all_goals first | assumption | simp_all

/-- Only offset 4 is LEN. -/
theorem regAt_eq_len {off : Nat} (h : regAt off = some .len) : off = 4 := by
  unfold regAt at h
  repeat' split at h
  all_goals first | assumption | simp_all

/-- Everything a word write to the window can do. -/
theorem windowWrite_cases (off : Nat) (v : Word) (s : State) :
    (off = 0 ∧ windowWrite off v s = commandWrite v s) ∨
    (off = 4 ∧ windowWrite off v s = .next { s with len := v }) ∨
    (off ≠ 0 ∧ off ≠ 4 ∧ windowWrite off v s = .next s) := by
  by_cases h0 : off = 0
  · subst h0; exact .inl ⟨rfl, rfl⟩
  · by_cases h4 : off = 4
    · subst h4; exact .inr (.inl ⟨rfl, rfl⟩)
    · refine .inr (.inr ⟨h0, h4, ?_⟩)
      unfold windowWrite
      cases hr : regAt off with
      | none => rfl
      | some r =>
        cases r with
        | cmd => exact absurd (regAt_eq_cmd hr) h0
        | len => exact absurd (regAt_eq_len hr) h4
        | _ => rfl

/-! ## Decoded and illegal words -/

/-- A word that decodes is its command's word. -/
theorem eq_encode_of_decode {w : Word} {i : Instr} (h : decode w = .ok i) : w = encode i := by
  unfold decode at h
  split at h
  · rename_i hr
    have hop := (opcodeOf_eq_ok _ _).1 h
    have hrsv : (Cmd32.ofWord w).rsv = 0#28 := by simpa [Cmd32.rsvOk] using hr
    rw [← Cmd32.toWord_ofWord w, encode, ← hop, ← hrsv]
  · cases h

/-- A command's word decodes to it. -/
theorem decode_of_encode (i : Instr) : decode (encode i) = .ok i := by cases i <;> rfl

@[simp] theorem commandWrite_encode (i : Instr) (s : State) : commandWrite (encode i) s = exec i s := by
  rw [commandWrite, decode_of_encode]

/-- Everything a CMD write can do. -/
theorem commandWrite_cases (w : Word) (s : State) :
    (∃ i, w = encode i ∧ commandWrite w s = exec i s) ∨
    ((∀ i, decode w ≠ .ok i) ∧ s.phase = .fault ∧ commandWrite w s = .next s) ∨
    ((∀ i, decode w ≠ .ok i) ∧ s.phase ≠ .fault ∧ commandWrite w s = .next (raiseFault .illegalCmd s)) := by
  cases hd : decode w with
  | ok i =>
    have hw := eq_encode_of_decode hd
    exact .inl ⟨i, hw, by rw [hw, commandWrite_encode]⟩
  | error e =>
    by_cases hp : s.phase = .fault
    · exact .inr (.inl ⟨by simp, hp, by simp [commandWrite, hd, illegalWord, hp]⟩)
    · exact .inr (.inr ⟨by simp, hp, by simp [commandWrite, hd, illegalWord, hp]⟩)

/-! ## Steps -/

@[simp] theorem step_push (s : State) (e : HostEvent) : step (s.push e) = perform e s := rfl

theorem step_cons {s : State} {e : HostEvent} {rest : List HostEvent} (h : s.pending = e :: rest) :
    step s = perform e (s.withPending rest) := by rw [step, stepHost, h]

theorem step_idle {s : State} (h : s.pending = []) : step s = .next s := by rw [step, stepHost, h]

@[simp] theorem perform_cmdWrite (s : State) (w : Word) : perform (cmdWrite s.cfg w) s = commandWrite w s := by
  rw [cmdWrite, perform, windowAccess_at _ (by decide) (by decide)]
  rfl

/-- Everything an event that goes on can do. -/
theorem perform_cases {e : HostEvent} {s t : State} (h : perform e s = .next t) :
    (∃ w, e = cmdWrite s.cfg w ∧ commandWrite w s = .next t) ∨
    (∃ v, e = .writeReg 32 (s.cfg.regBase + 4) v ∧ t = { s with len := v }) ∨
    (∃ off v, e = .writeReg 32 (s.cfg.regBase + off) v ∧ off ≠ 0 ∧ off ≠ 4 ∧ t = s) ∨
    (∃ r, ((∃ bits addr, e = .readReg bits addr) ∨ ∃ addr, e = .readIbuf addr) ∧ t = reply r s) ∨
    (∃ i v, e = .writeIbuf (s.cfg.ibufBase + i) v ∧ i < s.bufSize ∧ t = pokeByte i v s) ∨
    (e = .reset ∧ t = resetBlock s) := by
  cases e with
  | writeReg bits addr v =>
    rw [perform] at h
    obtain ⟨off, rfl, rfl, _, _, hf⟩ := windowAccess_next h
    rcases windowWrite_cases off v s with ⟨rfl, hw⟩ | ⟨rfl, hw⟩ | ⟨h0, h4, hw⟩
    · exact .inl ⟨v, rfl, by rw [← hw]; exact hf⟩
    · rw [hw] at hf; cases hf
      exact .inr (.inl ⟨v, rfl, rfl⟩)
    · rw [hw] at hf; cases hf
      exact .inr (.inr (.inl ⟨off, v, rfl, h0, h4, rfl⟩))
  | readReg bits addr =>
    rw [perform] at h
    obtain ⟨off, rfl, rfl, _, _, hf⟩ := windowAccess_next h
    cases hf
    exact .inr (.inr (.inr (.inl ⟨_, .inl ⟨_, _, rfl⟩, rfl⟩)))
  | writeIbuf addr v =>
    rw [perform] at h
    obtain ⟨i, rfl, hi, hf⟩ := ibufAccess_next h
    cases hf
    exact .inr (.inr (.inr (.inr (.inl ⟨i, v, rfl, hi, rfl⟩))))
  | readIbuf addr =>
    rw [perform] at h
    obtain ⟨i, rfl, hi, hf⟩ := ibufAccess_next h
    cases hf
    exact .inr (.inr (.inr (.inl ⟨_, .inr ⟨_, rfl⟩, rfl⟩)))
  | reset =>
    cases h
    exact .inr (.inr (.inr (.inr (.inr ⟨rfl, rfl⟩))))

/-- Two commands' CMD writes are alike only for one command. -/
theorem cmdWrite_encode_inj {cfg : Config} {i j : Instr} (h : cmdWrite cfg (encode i) = cmdWrite cfg (encode j)) : i = j := by
  simp only [cmdWrite, HostEvent.writeReg.injEq, true_and] at h
  revert h
  cases i <;> cases j <;> decide

/-- Everything a step with an event pending can do, guards included. -/
theorem step_next_cases {s t : State} {e rest} (hp : s.pending = e :: rest) (h : step s = .next t) :
    (∃ i, e = cmdWrite s.cfg (encode i) ∧ exec i (s.withPending rest) = .next t) ∨
    (∃ w, e = cmdWrite s.cfg w ∧ (∀ i, decode w ≠ .ok i) ∧ s.phase = .fault ∧ t = (s.withPending rest)) ∨
    (∃ w, e = cmdWrite s.cfg w ∧ (∀ i, decode w ≠ .ok i) ∧ s.phase ≠ .fault ∧ t = raiseFault .illegalCmd (s.withPending rest)) ∨
    (∃ v, e = .writeReg 32 (s.cfg.regBase + 4) v ∧ t = { s.withPending rest with len := v }) ∨
    ((∀ w, e ≠ cmdWrite s.cfg w) ∧ t = (s.withPending rest)) ∨
    (∃ r, t = reply r (s.withPending rest) ∧ ∀ w, e ≠ cmdWrite s.cfg w) ∨
    (∃ i v, e = .writeIbuf (s.cfg.ibufBase + i) v ∧ i < s.bufSize ∧ t = pokeByte i v (s.withPending rest)) ∨
    (e = .reset ∧ t = resetBlock (s.withPending rest)) := by
  rw [step_cons hp] at h
  rcases perform_cases h with ⟨w, he, hc⟩ | ⟨v, he, ht⟩ | ⟨off, v, he, h0, h4, ht⟩ | ⟨r, he, ht⟩ | ⟨i, v, he, hi, ht⟩ | ⟨he, ht⟩
  · rcases commandWrite_cases w (s.withPending rest) with ⟨i, hw, hx⟩ | ⟨hd, hf, hx⟩ | ⟨hd, hf, hx⟩
    · exact .inl ⟨i, by rw [he, hw]; rfl, by rw [← hx]; exact hc⟩
    · rw [hx] at hc; cases hc; exact .inr (.inl ⟨w, he, hd, hf, rfl⟩)
    · rw [hx] at hc; cases hc; exact .inr (.inr (.inl ⟨w, he, hd, hf, rfl⟩))
  · exact .inr (.inr (.inr (.inl ⟨v, he, ht⟩)))
  · refine .inr (.inr (.inr (.inr (.inl ⟨?_, ht⟩))))
    intro w hw
    rw [he] at hw; simp [cmdWrite, Reg.offset] at hw; omega
  · refine .inr (.inr (.inr (.inr (.inr (.inl ⟨r, ht, ?_⟩)))))
    rintro w rfl
    rcases he with ⟨b, a, h⟩ | ⟨a, h⟩ <;> simp [cmdWrite] at h
  · exact .inr (.inr (.inr (.inr (.inr (.inr (.inl ⟨i, v, he, hi, ht⟩))))))
  · exact .inr (.inr (.inr (.inr (.inr (.inr (.inr ⟨he, ht⟩))))))

/-! ## Several steps -/

/-- What a run of any machine does after one step that goes on. -/
theorem coreRun_succ (M : Host.Core) {s t : M.State} (k : Nat) (h : M.step s = .next t) :
    M.run (k + 1) s = M.run k t := by rw [Host.Core.run, h]

/-- A run of any machine in two parts. -/
theorem coreRun_add (M : Host.Core) {s t : M.State} {j : Nat} (k : Nat) (h : M.run j s = .next t) :
    M.run (j + k) s = M.run k t := by
  induction j generalizing s with
  | zero => cases h; rw [Nat.zero_add]
  | succ j ih =>
    cases hs : M.step s with
    | next u =>
      rw [coreRun_succ M j hs] at h
      rw [Nat.add_right_comm, coreRun_succ M (j + k) hs, ih h]
    | fault x => rw [Host.Core.run, hs] at h; cases h
    | refused x => rw [Host.Core.run, hs] at h; cases h

/-- What a run does after one step that goes on. -/
theorem run_succ {s t : State} (k : Nat) (h : step s = .next t) :
    Host.Core.run Sys2Proof.core (k + 1) s = Host.Core.run Sys2Proof.core k t := coreRun_succ Sys2Proof.core k h

@[simp] theorem run_zero (s : State) : Host.Core.run Sys2Proof.core 0 s = .next s := rfl

/-- A run in two parts. -/
theorem run_add {s t : State} {j : Nat} (k : Nat) (h : Host.Core.run Sys2Proof.core j s = .next t) :
    Host.Core.run Sys2Proof.core (j + k) s = Host.Core.run Sys2Proof.core k t := coreRun_add Sys2Proof.core k h

end Sys2Proof.Machine
end

