-- ==== Sys2Proof/Laws/Sequence.lean ====
section
/-! SUPPORT. Commands in a row: the host's list does not matter to a command, and a run over CMD writes is the commands one
after another. -/

namespace Sys2Proof.Machine

@[simp] theorem mapNext_next (f : State → State) (t : State) : mapNext f (.next t) = .next (f t) := rfl
@[simp] theorem mapNext_fault (f : State → State) (x : Fault) : mapNext f (.fault x) = .fault x := rfl
@[simp] theorem mapNext_refused (f : State → State) (x : Refusal) : mapNext f (.refused x) = .refused x := rfl

/-- The host's list does not matter to what a command does. -/
def Obeys (f : State → Result) : Prop :=
  ∀ (s : State) (p : List HostEvent), f (s.withPending p) = mapNext (·.withPending p) (f s)

theorem obeys_andThen {f g : State → Result} (hf : Obeys f) (hg : Obeys g) : Obeys fun s => andThen (f s) g := by
  intro s p
  simp only [hf s p]
  cases f s with
  | next t => exact hg t p
  | fault x => rfl
  | refused x => rfl

theorem obeys_performInit : Obeys (exec .init) := by
  intro s p
  rcases performInit_cases s with ⟨hl, he⟩ | ⟨hl, he⟩
  · rw [exec_init, exec_init, he, performInit_fits (s := s.withPending p) hl]; rfl
  · rw [exec_init, exec_init, he, performInit_exceeds (s := s.withPending p) hl]; rfl

theorem obeys_performBlock : Obeys performBlock := by
  intro s p
  rcases performBlock_cases s with ⟨hp, he⟩ | ⟨hp, hl, he⟩ | ⟨hp, hr, hb, he⟩ | ⟨hp, hr, hb, he⟩
  · rw [he]; exact performBlock_fault (s := s.withPending p) hp
  · rw [he]; exact performBlock_sequence (s := s.withPending p) hp hl
  · rw [he]; exact performBlock_ok (s := s.withPending p) hp hr hb
  · rw [he]
    rcases performBlock_cases (s.withPending p) with ⟨hp', _⟩ | ⟨_, hl', _⟩ | ⟨_, _, hb', _⟩ | ⟨_, _, _, he'⟩
    · exact absurd (hp.symm.trans hp') (by simp)
    · exact absurd ((blockLegal_iff s).2 ⟨hp, hr⟩) (by rw [show s.blockLegal = false from hl']; simp)
    · exact absurd hb (Nat.not_lt.2 hb')
    · exact he'

theorem obeys_performTail : Obeys performTail := by
  intro s p
  rcases performTail_cases s with ⟨hp, he⟩ | ⟨hp, hl, he⟩ | ⟨hp, hr, hb, he⟩ | ⟨hp, h1, hr, hb, he⟩
  · rw [he]; exact performTail_fault (s := s.withPending p) hp
  · rw [he]; exact performTail_sequence (s := s.withPending p) hp hl
  · rw [he]; exact performTail_ok (s := s.withPending p) hp hr hb
  · rw [he]
    rcases performTail_cases (s.withPending p) with ⟨hp', _⟩ | ⟨_, hl', _⟩ | ⟨_, _, hb', _⟩ | ⟨_, _, _, _, he'⟩
    · exact absurd (hp.symm.trans hp') (by simp)
    · exact absurd ((tailLegal_iff s).2 ⟨hp, hr⟩) (by rw [show s.tailLegal = false from hl']; simp)
    · exact absurd hb' (show ¬ (s.rem.toNat = 0 ∨ s.cursor.toNat + s.rem.toNat ≤ s.bufSize) by omega)
    · exact he'

theorem obeys_performFinal : Obeys performFinal := by
  intro s p
  rcases performFinal_cases s with ⟨hp, he⟩ | ⟨hp, hl, he⟩ | ⟨hp, he⟩
  · rw [he]; exact performFinal_fault (s := s.withPending p) hp
  · rw [he]; exact performFinal_sequence (s := s.withPending p) hp hl
  · rw [he]; exact performFinal_ok (s := s.withPending p) hp

theorem obeys_blockLoop (n : Nat) : Obeys (blockLoop n) := by
  induction n with
  | zero => intro s p; rfl
  | succ n ih =>
    intro s p
    by_cases hr : 12 ≤ s.rem.toNat
    · rw [blockLoop, if_pos (show 12 ≤ (s.withPending p).rem.toNat from hr), blockLoop, if_pos hr]
      exact obeys_andThen obeys_performBlock ih s p
    · rw [blockLoop_done (s := s.withPending p) _ (Nat.not_le.1 hr), blockLoop_done _ (Nat.not_le.1 hr)]; rfl

theorem obeys_performRun : Obeys performRun := by
  intro s p
  rcases Nat.lt_or_ge s.bufSize s.len.toNat with hl | hl
  · rw [performRun_exceeds hl, performRun_exceeds (s := s.withPending p) hl]; rfl
  · rw [performRun_fits hl, performRun_fits (s := s.withPending p) hl]
    exact obeys_andThen (obeys_blockLoop _) (obeys_andThen obeys_performTail obeys_performFinal)
      (startHash (clearErr s)) p

/-- The host's list does not matter to any command. -/
theorem obeys_exec (i : Instr) : Obeys (exec i) := by
  cases i with
  | init => exact obeys_performInit
  | block => exact obeys_performBlock
  | tail => exact obeys_performTail
  | final => exact obeys_performFinal
  | run => exact obeys_performRun

/-! ## Commands in a row -/

/-- The commands of a list one after another. -/
def execAll : List Instr → State → Result
  | [], s => .next s
  | i :: is, s => andThen (exec i s) (execAll is)

@[simp] theorem execAll_nil (s : State) : execAll [] s = .next s := rfl
@[simp] theorem execAll_cons (i : Instr) (is : List Instr) (s : State) :
    execAll (i :: is) s = andThen (exec i s) (execAll is) := rfl

theorem execAll_append (is js : List Instr) : ∀ s : State, execAll (is ++ js) s = andThen (execAll is s) (execAll js) := by
  induction is with
  | nil => intro s; rfl
  | cons i is ih =>
    intro s
    simp only [List.cons_append, execAll_cons]
    cases exec i s with
    | next t => exact ih t
    | fault x => rfl
    | refused x => rfl

/-- One step on a command's CMD write. -/
theorem step_command (s : State) (i : Instr) (rest : List HostEvent) :
    step (s.withPending (cmdWrite s.cfg (encode i) :: rest)) = exec i (s.withPending rest) := by
  rw [step_cons rfl]
  exact (perform_cmdWrite (s.withPending rest) (encode i)).trans (commandWrite_encode ..)

/-- No command changes the parameters. -/
theorem exec_cfg {i : Instr} {s t : State} (h : exec i s = .next t) : t.cfg = s.cfg := by
  rcases exec_next_cases h with ⟨_, _, _, ht⟩ | ⟨_, _, _, _, ht⟩ | ⟨_, _, ht⟩ | ⟨_, _, ht⟩ | ⟨_, _, _, _, ht⟩ |
    ⟨_, _, _, _, ht⟩ | ⟨_, _, ht⟩ | ⟨rfl, hl⟩
  all_goals first | (subst ht; rfl) | skip
  rw [exec_run, performRun_fits hl] at h
  obtain ⟨u, hb, _, hc, hr, hrest⟩ := blockLoop_runs (s.len.toNat / 12) (startHash (clearErr s)) rfl rfl
    ⟨by simp, by simp, hl⟩ (by simp [hashLoop])
  have hcfg : u.cfg = s.cfg := by simpa using congrArg State.cfg hrest
  rw [hb _ (Nat.le_refl _), andThen_next] at h
  rcases performTail_cases u with ⟨_, he⟩ | ⟨_, _, he⟩ | ⟨_, _, _, he⟩ | ⟨_, _, _, _, he⟩ <;> rw [he] at h
  · rcases performFinal_cases u with ⟨_, he'⟩ | ⟨_, _, he'⟩ | ⟨_, he'⟩ <;> rw [andThen_next, he'] at h <;> cases h <;>
      exact hcfg
  · rw [andThen_next, performFinal_fault rfl] at h; cases h; exact hcfg
  · rw [andThen_next, performFinal_ok rfl] at h; cases h; exact hcfg
  · cases h

/-- A run over the CMD writes of a list of commands is the commands one after another, when each of them goes on. -/
theorem run_commands (is : List Instr) : ∀ {s t : State} (rest : List HostEvent), execAll is s = .next t →
    Host.Core.run Sys2Proof.core is.length
      (s.withPending (is.map (fun i => cmdWrite s.cfg (encode i)) ++ rest)) = .next (t.withPending rest) := by
  induction is with
  | nil => intro s t rest h; cases h; rfl
  | cons i is ih =>
    intro s t rest h
    rw [execAll_cons] at h
    cases hi : exec i s with
    | next u =>
      rw [hi, andThen_next] at h
      have hstep := step_command s i (is.map (fun i => cmdWrite s.cfg (encode i)) ++ rest)
      rw [obeys_exec i s, hi, mapNext_next] at hstep
      have hrest := ih rest h
      rw [exec_cfg hi] at hrest
      exact (run_succ _ hstep).trans hrest
    | fault x => rw [hi] at h; cases h
    | refused x => rw [hi] at h; cases h

/-- BLOCKs in a row, as many as the loop guard allows, are the loop. -/
theorem execAll_blocks (n : Nat) : ∀ s : State, s.phase = .body → s.countersOk → 12 * n ≤ s.rem.toNat →
    execAll (List.replicate n .block) s = blockLoop n s := by
  induction n with
  | zero => intro s _ _ _; rfl
  | succ n ih =>
    intro s hp ⟨hc, h12, hk⟩ hn
    have hr : 12 ≤ s.rem.toNat := by omega
    obtain ⟨hcur, hrem⟩ := foldBlock_counters hr hc
    rw [List.replicate_succ, execAll_cons, exec_block, performBlock_ok hp hr (by omega), andThen_next,
      blockLoop_again n hp hr (by omega)]
    exact ih _ hp ⟨by simp only [foldBlock_klen]; omega, by omega, hk⟩ (by omega)

end Sys2Proof.Machine
end

