-- ==== Sys2Proof/Tests/Slice0.lean ====
section
/-! SUPPORT. Tests: the well-formedness smoke, decoding from words written out from spec/30_encoding.md R68, at most two small
tests a command from spec/95_test_vectors.md, and for every statement with hypotheses a witness that meets them. The spec says of
its vectors that they were computed from its rules (91_not_in_source.md N9). -/

namespace Sys2Proof.Machine.Tests

set_option Elab.async false

/-! ## Small states -/

/-- The canonical memory of some bytes from an index on. -/
def bytesFrom : Nat → List Byte → Memory
  | _, [] => []
  | i, b :: bs => if b = 0 then bytesFrom (i + 1) bs else (i, b) :: bytesFrom (i + 1) bs

/-- Reset, with BUF_SIZE 16, the window at 0x1000, IBUF at 0x2000, some bytes in IBUF and LEN written. -/
def idle (key : List Byte) (len : Word) : State :=
  { State.reset with cfg := { bufSize := 16, regBase := 0x1000, ibufBase := 0x2000 }, ibuf := bytesFrom 0 key, len := len }

/-- The state a result goes on with; reset for a stop. -/
def go : Result → State
  | .next s => s
  | .fault _ => State.reset
  | .refused _ => State.reset

/-- What a host sees first: (A, B, C), DIGEST and STATUS. -/
def view (s : State) : Word × Word × Word × Word × Word := (s.a, s.b, s.c, s.digest, s.status)

/-- The key `00 01 02 …` of a length. -/
def counting (n : Nat) : List Byte := (List.range n).map (BitVec.ofNat 8)

def abc : State := idle [0x61#8, 0x62#8, 0x63#8] 3#32
def idle13 : State := idle (counting 13) 13#32
def idle12 : State := idle (counting 12) 12#32
def idle11 : State := idle (counting 11) 11#32
def idle16 : State := idle [] 16#32
def idle17 : State := idle [] 17#32
def body13 : State := go (exec .init idle13)
def body12 : State := go (exec .init idle12)
def body11 : State := go (exec .init idle11)
def body1 : State := go (exec .block body13)
def tailed13 : State := go (exec .tail body1)
def done13 : State := go (exec .final tailed13)
def faulted : State := go (exec .block idle13)
def faulted17 : State := go (exec .init idle17)
def restarted : State := go (exec .init faulted)

/-- A state with one event to come. -/
def before (e : HostEvent) (s : State) : State := s.push e

/-- The CMD write of a command in these states. -/
def cmd (i : Instr) : HostEvent := cmdWrite { bufSize := 16, regBase := 0x1000, ibufBase := 0x2000 } (encode i)

/-! ## The well-formedness smoke -/

theorem test_wf_accepts : (Cmd32.mk 5#4 0#28).wf = true := by decide
theorem test_wf_refuses_rsv : (Cmd32.mk 5#4 1#28).rsvOk = false ∧ (Cmd32.mk 5#4 1#28).wf = false := by decide
theorem test_wf_refuses_op_zero : (Cmd32.mk 0#4 0#28).opOk = false ∧ (Cmd32.mk 0#4 0#28).wf = false := by decide
theorem test_wf_refuses_op_six : (Cmd32.mk 6#4 0#28).opOk = false ∧ (Cmd32.mk 6#4 0#28).wf = false := by decide

/-! ## Decoding, each word bit by bit from R68 (V7) -/

theorem test_decode_init : decode 0b00000000000000000000000000000001#32 = .ok .init := by decide
theorem test_decode_block : decode 0b00000000000000000000000000000010#32 = .ok .block := by decide
theorem test_decode_tail : decode 0b00000000000000000000000000000011#32 = .ok .tail := by decide
theorem test_decode_final : decode 0b00000000000000000000000000000100#32 = .ok .final := by decide
theorem test_decode_run : decode 0b00000000000000000000000000000101#32 = .ok .run := by decide
theorem test_decode_illegal :
    decode 0x00000000#32 = .error .reservedOp ∧ decode 0x00000006#32 = .error .reservedOp ∧
    decode 0x0000000f#32 = .error .reservedOp ∧ decode 0x00000012#32 = .error .reservedBits ∧
    decode 0x00000015#32 = .error .reservedBits ∧ decode 0x80000001#32 = .error .reservedBits := by decide
theorem test_decode_short : decodeBytes [0x01#8, 0x00#8, 0x00#8] = .error .tooShort := by decide
theorem test_decode_table_word : decodeTableWord 32 4 = some .final ∧ decodeTableWord 32 0 = none := by decide

/-! ## The diffuser and packing (V1, V2) -/

theorem test_mix_mixed_bits :
    mix ⟨0x01234567#32, 0x89abcdef#32, 0xdeadbeef#32⟩ = ⟨0x20173ce4#32, 0x53dd064a#32, 0x7ebbca78#32⟩ := by decide +kernel
theorem test_mix_top_bit :
    mix ⟨0x80000000#32, 0#32, 0#32⟩ = ⟨0xecf0bf7d#32, 0xcde4b445#32, 0xc8e117f5#32⟩ := by decide +kernel
theorem test_unmix :
    unmix ⟨0x20173ce4#32, 0x53dd064a#32, 0x7ebbca78#32⟩ = ⟨0x01234567#32, 0x89abcdef#32, 0xdeadbeef#32⟩ := by
  decide +kernel
theorem test_le32 : le32 (Memory.read [(7, 0x54#8), (8, 0x68#8), (9, 0x65#8), (10, 0x20#8)]) 7 = 0x20656854#32 := by decide

/-! ## INIT (V3) -/

theorem test_init_accepted :
    view body13 = (0x9e3779b9#32, 0x9e3779b9#32, 0x003bdc97#32, 0#32, 0x01#32) ∧
    (body13.klen, body13.cursor, body13.rem) = (13#32, 0#32, 13#32) := by decide +kernel
/-- V3's "FAULT, ERR = SEQUENCE" row: ERR is cleared, then BOUNDS is recorded. -/
theorem test_init_bounds_in_fault :
    view (go (exec .init { faulted with len := 17#32 })) = (0#32, 0#32, 0#32, 0#32, 0x34#32) := by decide +kernel

/-! ## BLOCK (V4) -/

theorem test_block_13 :
    (body1.a, body1.b, body1.c, body1.cursor, body1.rem) =
      (0xa57b7cee#32, 0x95131280#32, 0x46ab3bd2#32, 12#32, 1#32) := by decide +kernel
theorem test_block_sequence : (go (exec .block body11)).status = 0x24#32 ∧ (go (exec .block body11)).acc = body11.acc := by
  decide +kernel

/-! ## TAIL (V5) -/

theorem test_tail_9_bytes :
    view (go (exec .tail (go (exec .init (idle (List.replicate 9 0xff#8) 9#32))))) =
      (0x9e3779b8#32, 0x9e3779b8#32, 0x003cdba0#32, 0#32, 0x02#32) := by decide +kernel
theorem test_tail_11_bytes :
    view (go (exec .tail (go (exec .init (idle (List.replicate 11 0xff#8) 11#32))))) =
      (0x9e3779b8#32, 0x9e3779b8#32, 0x003bdba2#32, 0#32, 0x02#32) := by decide +kernel

/-! ## FINAL (P1, V8) -/

theorem test_final_abc :
    view (go (exec .final (go (exec .tail (go (exec .init abc)))))) =
      (0xb58cffeb#32, 0x9ac970b0#32, 0x2263b747#32, 0x2263b747#32, 0x03#32) := by decide +kernel
theorem test_final_twice :
    (go (exec .final (go (exec .run abc)))).status = 0x24#32 ∧ (go (exec .final (go (exec .run abc)))).digest = 0x2263b747#32 := by
  decide +kernel

/-! ## RUN (V6) -/

theorem test_run_43_bytes :
    view (go (exec .run { idle ([0x54, 0x68, 0x65, 0x20, 0x71, 0x75, 0x69, 0x63, 0x6b, 0x20, 0x62, 0x72, 0x6f, 0x77, 0x6e,
      0x20, 0x66, 0x6f, 0x78, 0x20, 0x6a, 0x75, 0x6d, 0x70, 0x73, 0x20, 0x6f, 0x76, 0x65, 0x72, 0x20, 0x74, 0x68, 0x65, 0x20,
      0x6c, 0x61, 0x7a, 0x79, 0x20, 0x64, 0x6f, 0x67]) 43#32 with cfg := { bufSize := 64, regBase := 0, ibufBase := 0 } })) =
      (0x6714d8cb#32, 0x05f1aca5#32, 0xab460bf2#32, 0xab460bf2#32, 0x03#32) := by decide +kernel
theorem test_run_13_bytes :
    view (go (exec .run idle13)) = (0x50be4bd6#32, 0x134b143c#32, 0xf6deecfb#32, 0xf6deecfb#32, 0x03#32) ∧
    ((go (exec .run idle13)).klen, (go (exec .run idle13)).cursor, (go (exec .run idle13)).rem) = (13#32, 12#32, 1#32) := by
  decide +kernel
/-- R113 apart from the commands: V6's digest of `61` x 24. -/
theorem test_hash_24_bytes : hashFn (fun _ => 0x61#8) 24 = 0x62b78b33#32 := by decide +kernel

/-! ## The host's side (V7, V8, P3, R46) -/

theorem test_fetch_word : step (State.reset.withFetchWord 32 5) = exec .run State.reset := rfl
theorem test_illegal_word : (go (step (State.reset.withFetchWord 32 0x15))).status = 0x14#32 := by decide +kernel
theorem test_fault_ignores : step (before (cmd .tail) faulted) = .next faulted := rfl
/-- V8: a LEN write after INIT does not reach the hash. -/
theorem test_len_after_init :
    (go (exec .final (go (exec .tail { go (exec .init abc) with len := 99#32 })))).digest = 0x2263b747#32 := by decide +kernel
/-- V8: an IBUF write between INIT and TAIL is read at TAIL's step. -/
theorem test_ibuf_write_mid_hash :
    (go (exec .final (go (exec .tail (pokeByte 0 0x41#8 (go (exec .init abc))))))).digest = 0xcd72b243#32 := by decide +kernel
theorem test_read_status :
    (go (step (before (.readReg 32 0x1008) done13))).replies = [.word 0x03#32] := by decide +kernel
theorem test_narrow_access_refused : step (before (.readReg 8 0x1004) idle13) = .refused .notWordAccess := rfl
theorem test_unaligned_access_refused : step (before (.writeReg 32 0x1006 1#32) idle13) = .refused .unalignedAccess := rfl
theorem test_outside_stops :
    step (before (.readReg 32 0x1040) idle13) = .fault .outsideWindow ∧
    step (before (.writeIbuf 0x2010 1#8) idle13) = .fault .outsideIbuf := ⟨rfl, rfl⟩
theorem test_write_zero_unlists : Memory.write [(3, 1#8), (5, 2#8)] 3 0#8 = [(5, 2#8)] := by decide
theorem test_hash_events :
    programEvents idle13.cfg (pseudoHash 13) =
      [.writeReg 32 0x1004 13#32, .writeReg 32 0x1000 5#32, .readReg 32 0x100C] := by decide

/-! ## Witnesses of the statements' hypotheses -/

theorem inv_idle13 : Inv idle13 := ⟨by decide, by decide, by decide, by decide, by decide, by decide, by decide, by decide, by decide⟩
theorem inv_body13 : Inv body13 := by constructor <;> decide +kernel
theorem inv_body12 : Inv body12 := by constructor <;> decide +kernel
theorem inv_body11 : Inv body11 := by constructor <;> decide +kernel
theorem inv_body1 : Inv body1 := by constructor <;> decide +kernel
theorem inv_tailed13 : Inv tailed13 := by constructor <;> decide +kernel
theorem inv_done13 : Inv done13 := by constructor <;> decide +kernel
theorem inv_faulted : Inv faulted := by constructor <;> decide +kernel

/-- Each kind of word, and the error clause outside FAULT. -/
theorem witness_DecodeAcceptsExactlyTheFiveWords :
    decode 0x5#32 = .ok .run ∧ BitVec.extractLsb' 4 28 0x15#32 ≠ 0#28 ∧
    (0x00000006 ≤ (0x6#32).toNat ∧ (0xf#32).toNat ≤ 0x0000000F) ∧
    decode 0x0#32 = .error .reservedOp ∧ idle13.phase ≠ .fault := by decide
theorem witness_ByteLanesCarryTheWord : (3 < 4 ∧ 7 < 8) ∧ (0 < 4 ∧ 0 < 8) := by decide
theorem witness_MixRowsFollowTheTable :
    MixRow.mk .b (.left 8) ∈ schedule ∧ MixRow.mk .a (.right 13) ∈ schedule ∧ MixRow.mk .c (.right 15) ∈ schedule := by decide
theorem witness_WordsArePackedLeastSignificantFirst :
    let k := Memory.read [(0, 1#8), (1, 2#8), (2, 3#8), (3, 4#8)]
    k 0 = 0x01#8 ∧ k (0 + 1) = 0x02#8 ∧ k (0 + 2) = 0x03#8 ∧ k (0 + 3) = 0x04#8 := by decide
theorem witness_StatusHoldsPhaseAndErr : 8 ≤ 8 ∧ 8 ≤ 31 := by decide

/-- One event per phase entered, the phase before another one; and BLOCK in BODY. -/
theorem witness_PhasesAreEnteredAsListed :
    (step (before .reset done13) = .next (resetBlock done13) ∧ (resetBlock done13).phase = .idle ∧ done13.phase ≠ .idle) ∧
    (step (before (cmd .init) idle13) = .next body13 ∧ body13.phase = .body ∧ idle13.phase ≠ .body) ∧
    (step (before (cmd .tail) body1) = .next tailed13 ∧ tailed13.phase = .tailed ∧ body1.phase ≠ .tailed) ∧
    (step (before (cmd .final) tailed13) = .next done13 ∧ done13.phase = .done ∧ tailed13.phase ≠ .done) ∧
    (step (before (cmd .block) idle13) = .next faulted ∧ faulted.phase = .fault ∧ idle13.phase ≠ .fault) ∧
    (step (before (cmd .block) body13) = .next body1 ∧ body13.phase = .body ∧ body1.phase ≠ .fault) :=
  ⟨⟨rfl, by decide +kernel⟩, ⟨rfl, by decide +kernel⟩, ⟨rfl, by decide +kernel⟩, ⟨rfl, by decide +kernel⟩,
    ⟨rfl, by decide +kernel⟩, ⟨rfl, by decide +kernel⟩⟩

/-- ERR changed from a code and from NONE, to each code; ERR and PHASE agreeing before. -/
theorem witness_ErrHoldsTheFirstFault :
    (step (before (cmd .init) faulted) = .next restarted ∧ faulted.err ≠ .none ∧ restarted.err ≠ faulted.err) ∧
    (step (before (cmdWrite idle13.cfg 0#32) idle13) = .next (raiseFault .illegalCmd idle13) ∧
      (raiseFault .illegalCmd idle13).err = .illegalCmd ∧ idle13.err = .none) ∧
    (step (before (cmd .block) idle13) = .next faulted ∧ faulted.err = .sequence) ∧
    (step (before (cmd .init) idle17) = .next faulted17 ∧ faulted17.err = .bounds ∧ idle17.err = .none) ∧
    (idle13.err = .none ↔ idle13.phase ≠ .fault) :=
  ⟨⟨rfl, by decide +kernel⟩, ⟨rfl, by decide +kernel⟩, ⟨rfl, by decide +kernel⟩, ⟨rfl, by decide +kernel⟩, by decide⟩

theorem witness_FaultsArePrecise :
    (idle13.err = .none ∧ faulted.err ≠ .none) ∧
    (exec .block idle13 = .next faulted ∧ faulted.phase = .fault ∧ (idle13.err = .none ↔ idle13.phase ≠ .fault)) ∧
    (exec .init idle17 = .next faulted17 ∧ faulted17.phase = .fault) :=
  ⟨by decide +kernel, ⟨rfl, by decide +kernel⟩, ⟨rfl, by decide +kernel⟩⟩

theorem witness_IllegalWordRaisesIllegalCmd :
    (BitVec.extractLsb' 4 28 0x80000001#32 ≠ 0#28 ∧ (0#32).toNat = 0 ∧ 6 ≤ (6#32).toNat ∧ (15#32).toNat ≤ 15) ∧
    idle13.phase ≠ .fault ∧ faulted.phase = .fault := by decide +kernel

/-- A state in each row of R124's table, REM at 12 and at 11. -/
theorem witness_SequenceTable :
    idle13.phase = .idle ∧ (body12.phase = .body ∧ body12.rem.toNat = 12) ∧ (body11.phase = .body ∧ body11.rem.toNat = 11) ∧
    tailed13.phase = .tailed ∧ done13.phase = .done ∧ faulted.phase = .fault ∧ Inv body12 ∧ Inv body11 ∧ Inv tailed13 ∧
    idle16.len.toNat = idle16.bufSize :=
  ⟨by decide +kernel, by decide +kernel, by decide +kernel, by decide +kernel, by decide +kernel, by decide +kernel, inv_body12,
    inv_body11, inv_tailed13, by decide⟩

theorem witness_BoundsRaisedByInitAndRun : idle17.bufSize + 1 = idle17.len.toNat ∧ Inv body13 := ⟨by decide, inv_body13⟩

theorem witness_FaultPhaseIgnoresAllButInitAndRun :
    faulted.phase = .fault ∧ encode .tail ≠ encode .init ∧ encode .tail ≠ encode .run ∧ 0#32 ≠ encode .init ∧
    0#32 ≠ encode .run := by decide +kernel

theorem witness_CommandChecksComeInOrder :
    (faulted.phase = .fault ∧ 0x15#32 ≠ encode .init ∧ 0x15#32 ≠ encode .run) ∧
    (idle13.phase ≠ .fault ∧ decode 0#32 = .error .reservedOp) ∧
    (decode 0x2#32 = .ok .block ∧ legal .block idle13 = false) ∧
    (idle17.bufSize < idle17.len.toNat) ∧
    (body13.phase ≠ .fault ∧ legal .block body13 = true ∧ commandWrite 0x2#32 body13 = .next body1) ∧
    (idle16.phase ≠ .fault ∧ decode 0x1#32 = .ok .init ∧ legal .init idle16 = true ∧ idle16.len.toNat ≤ idle16.bufSize ∧
      commandWrite 0x1#32 idle16 = .next (go (exec .init idle16))) :=
  ⟨by decide +kernel, by decide +kernel, by decide +kernel, by decide, ⟨by decide +kernel, by decide +kernel, rfl⟩,
    ⟨by decide, by decide, by decide, by decide, rfl⟩⟩

theorem witness_FaultIsLeftByInitRunOrReset :
    (step (before (cmd .init) faulted) = .next restarted ∧ faulted.phase = .fault ∧ restarted.phase ≠ .fault) ∧
    faulted.len.toNat ≤ faulted.bufSize ∧ (faulted17.phase = .fault ∧ faulted17.bufSize < faulted17.len.toNat) ∧
    (encode .final ≠ encode .init ∧ encode .final ≠ encode .run) :=
  ⟨⟨rfl, by decide +kernel⟩, by decide +kernel, by decide +kernel, by decide⟩

theorem witness_InitStartsTheHash :
    idle16.len.toNat = idle16.bufSize ∧ (idle [] 0#32).len.toNat ≤ (idle [] 0#32).bufSize ∧
    idle17.bufSize + 1 = idle17.len.toNat := by decide

/-- REM at 12, REM at 11, another phase, FAULT, and the invariant. -/
theorem witness_BlockFoldsTwelveBytes :
    (body12.phase = .body ∧ body12.rem.toNat = 12 ∧ body12.cursor.toNat + 12 ≤ body12.bufSize) ∧
    (body11.phase ≠ .fault ∧ body11.rem.toNat < 12) ∧ (idle13.phase ≠ .fault ∧ idle13.phase ≠ .body) ∧
    faulted.phase = .fault ∧ Inv body12 := ⟨by decide +kernel, by decide +kernel, by decide, by decide +kernel, inv_body12⟩

/-- REM at 0, 1 and 11, REM at 12, another phase, and FAULT. -/
theorem witness_TailFoldsLengthAndRemainingBytes :
    ((go (exec .block body12)).phase = .body ∧ (go (exec .block body12)).rem.toNat = 0) ∧
    (body1.phase = .body ∧ body1.rem.toNat = 1 ∧ body1.cursor.toNat + body1.rem.toNat ≤ body1.bufSize) ∧
    (body11.phase = .body ∧ body11.rem.toNat = 11 ∧ body11.cursor.toNat + body11.rem.toNat ≤ body11.bufSize) ∧
    (body12.phase ≠ .fault ∧ 11 < body12.rem.toNat) ∧ (done13.phase ≠ .fault ∧ done13.phase ≠ .body) ∧
    faulted.phase = .fault := by decide +kernel

theorem witness_TailEqualsItsPackedForm : 0 ≤ 11 ∧ 11 ≤ 11 := by decide
/-- KLEN before, after and amid the lines. -/
theorem witness_TailOrderIsImmaterial :
    ([] ++ tailLines.reverse).Perm tailLines ∧ (tailLines.reverse ++ []).Perm tailLines ∧
    (tailLines.take 3 ++ tailLines.drop 3).Perm tailLines :=
  ⟨List.reverse_perm tailLines, by simp [List.reverse_perm], by rw [List.take_append_drop]⟩
theorem witness_TailCascadeIsInclusive :
    (TailLine.mk 1 0 0 .a ∈ tailLines ∧ TailLine.mk 11 10 24 .c ∈ tailLines) ∧ (TailLine.mk 11 10 24 .c).index = 10 := by decide

theorem witness_FinalPublishesTheDigest :
    tailed13.phase = .tailed ∧ (done13.phase ≠ .fault ∧ done13.phase ≠ .tailed) ∧ faulted.phase = .fault := by decide +kernel

theorem witness_RunComputesTheHash : idle16.len.toNat = idle16.bufSize ∧ idle17.bufSize + 1 = idle17.len.toNat := by decide
theorem witness_RunEqualsTheCommandsInARow : idle16.len.toNat = idle16.bufSize ∧ idle17.len.toNat = idle17.bufSize + 1 := by decide
theorem witness_HashEqualsHashStep : 13 < 2 ^ 32 ∧ 2 ^ 32 - 1 < 2 ^ 32 := by decide
theorem witness_BootOrderGivesTheDigest :
    Memory.wf idle13.ibuf = true ∧ (counting 16).length = idle13.bufSize ∧ (counting 16).length < 2 ^ 32 := by decide
theorem witness_EmptyKeyDigest : (idle (counting 3) 0#32).len = 0 := by decide

/-- The same key in two states that differ elsewhere, in IBUF too. -/
theorem witness_DigestDependsOnTheKeyAlone :
    idle11.len = ({ done13 with len := 11#32 } : State).len ∧ idle11.len.toNat ≤ idle11.bufSize ∧
    ({ done13 with len := 11#32 } : State).len.toNat ≤ ({ done13 with len := 11#32 } : State).bufSize ∧
    (∀ i, i < 11 → idle11.byteAt i = ({ done13 with len := 11#32 } : State).byteAt i) ∧
    idle11.byteAt 12 ≠ ({ done13 with len := 11#32 } : State).byteAt 12 := by decide +kernel

theorem witness_ExactlyFloorBlocksAreLegal :
    idle13.len.toNat ≤ idle13.bufSize ∧ 0 ≤ idle13.len.toNat / 12 ∧ 1 = idle13.len.toNat / 12 := by decide
theorem witness_RunLoopEnds : Inv body13 ∧ body13.phase = .body ∧ body13.rem.toNat / 12 ≤ 1 :=
  ⟨inv_body13, by decide +kernel, by decide +kernel⟩

/-- Each register changed by a command that may, and LEN by a host write. -/
theorem witness_RegistersAreWrittenOnlyAsListed :
    (step (before (cmd .init) idle13) = .next body13 ∧ body13.acc ≠ idle13.acc ∧ body13.klen ≠ idle13.klen ∧
      body13.rem ≠ idle13.rem ∧ body13.phase ≠ idle13.phase) ∧
    (step (before (cmd .block) body13) = .next body1 ∧ body1.cursor ≠ body13.cursor) ∧
    (step (before (cmd .final) tailed13) = .next done13 ∧ done13.digest ≠ tailed13.digest) ∧
    (step (before (.writeReg 32 0x1004 9#32) idle13) = .next { idle13 with len := 9#32 } ∧ idle13.len ≠ 9#32) ∧
    cmd .init ≠ .reset :=
  ⟨⟨rfl, by decide +kernel⟩, ⟨rfl, by decide +kernel⟩, ⟨rfl, by decide +kernel⟩, ⟨rfl, by decide⟩, by decide⟩

theorem witness_OnlyTheHostWritesIbuf :
    exec .block body13 = .next body1 ∧
    (step (before (.writeIbuf 0x2000 7#8) idle13) = .next (pokeByte 0 7#8 idle13) ∧
      (pokeByte 0 7#8 idle13).byteAt 0 ≠ idle13.byteAt 0) := ⟨rfl, rfl, by decide⟩

/-- Another memory that agrees on the bytes each command reads and differs elsewhere. -/
theorem witness_CommandsReadOnlyTheirBytes :
    (∀ x ∈ ibufReads .block body13, Memory.read (bytesFrom 0 (counting 12)) x = body13.byteAt x) ∧
    (∀ x ∈ ibufReads .tail body1, Memory.read [(12, 12#8)] x = body1.byteAt x) ∧
    (∀ x ∈ ibufReads .run idle11, Memory.read (bytesFrom 0 (counting 16)) x = idle11.byteAt x) := by decide +kernel

theorem witness_ReadsStayInsideTheBuffer :
    (Inv body12 ∧ legal .block body12 = true) ∧ (Inv body11 ∧ legal .tail body11 = true) ∧
    (Inv idle13 ∧ legal .run idle13 = true ∧ idle13.len.toNat ≤ idle13.bufSize) ∧
    (Inv { idle13 with len := 17#32 } ∧ ({ idle13 with len := 17#32 } : State).bufSize < 17) :=
  ⟨⟨inv_body12, by decide +kernel⟩, ⟨inv_body11, by decide +kernel⟩, ⟨inv_idle13, by decide, by decide⟩,
    ⟨by constructor <;> decide, by decide⟩⟩

theorem witness_LenWriteDoesNotReachTheHash : exec .init idle13 = .next body13 ∧ body13.phase = .body := ⟨rfl, by decide +kernel⟩
theorem witness_HostWriteChangesOneByte : Memory.wf idle13.ibuf = true ∧ 15 < idle13.bufSize ∧ 0 < idle13.bufSize ∧ 1 ≠ 0 := by decide
/-- Wrong in the width alone, in the offset alone, and in both, at the window's two ends. -/
theorem witness_OtherWindowAccessesAreRefused :
    (0 < 0x40 ∧ 31 ≠ 32) ∧ (0x3F < 0x40 ∧ 0x3F % 4 ≠ 0) ∧ (0x3F < 0x40 ∧ 8 ≠ 32 ∧ 0x3F % 4 ≠ 0) := by decide
theorem witness_RefusedAccessesAreNamed : (0x3F < 0x40 ∧ 8 ≠ 32 ∧ 0x3F % 4 ≠ 0) ∧ (0 < 0x40 ∧ 16 ≠ 32 ∧ 1 % 4 ≠ 0) := by decide
theorem witness_AccessesOutsideBothSpacesStop :
    (0xFFF < idle13.cfg.regBase ∧ idle13.cfg.regBase + 0x40 ≤ 0x1040) ∧
    (0x1FFF < idle13.cfg.ibufBase ∧ idle13.cfg.ibufBase + idle13.bufSize ≤ 0x2010) := by decide

theorem witness_ReadsHaveNoSideEffects :
    step (before (.readReg 32 0x103C) idle13) = .next (reply (.word 0#32) idle13) ∧
    step (before (.readIbuf 0x200F) idle13) = .next (reply (.byte 0#8) idle13) ∧ 15 < idle13.bufSize ∧
    (step (before (cmd .block) body13) = .next body1 ∧ ∀ addr v, cmd .block ≠ .writeIbuf addr v) ∧
    (step (before (.writeReg 32 0x1000 1#32) idle13) = .next body13 ∧ { body13 with len := idle13.len } ≠ idle13) :=
  ⟨rfl, rfl, by decide, ⟨rfl, by simp [cmd, cmdWrite]⟩, rfl, by decide +kernel⟩

theorem witness_StepRunsTheDecodedCommand :
    decode 0x5#32 = .ok .run ∧ (before (cmd .run) idle13).pending = cmdWrite idle13.cfg 0x5#32 :: [] := by decide
theorem witness_BlockTakesNoStepOfItsOwn : done13.pending = [] := by decide +kernel

theorem witness_EveryStepKeepsTheInvariant : Inv (before (cmd .final) tailed13) ∧
    step (before (cmd .final) tailed13) = .next done13 := ⟨by constructor <;> decide +kernel, rfl⟩
theorem witness_NoCommandStops : Inv faulted ∧ Inv done13 := ⟨inv_faulted, inv_done13⟩

/-- A hash in BODY and its next command; and a host write at KLEN, which the duty allows. -/
theorem witness_EveryStepKeepsTheHashOnItsWay :
    (Inv (before (cmd .tail) body1) ∧ HashProgress (before (cmd .tail) body1) ∧ keepsKey (before (cmd .tail) body1) (cmd .tail) ∧
      step (before (cmd .tail) body1) = .next tailed13) ∧
    keepsKey body1 (.writeIbuf (0x2000 + 13) 1#8) ∧ (HashProgress done13 ∧ done13.phase = .done) :=
  ⟨⟨by constructor <;> decide +kernel, ⟨fun _ => by decide +kernel, by decide +kernel, by decide +kernel⟩, trivial, rfl⟩,
    fun _ => by decide +kernel, ⟨by decide +kernel, by decide +kernel, fun _ => by decide +kernel⟩, by decide +kernel⟩

theorem witness_CanonicalMemoriesThatReadAlikeAreEqual :
    Memory.wf [(3, 1#8)] = true ∧ Memory.wf (Memory.write [] 3 1#8) = true ∧
    (∀ i, Memory.read [(3, 1#8)] i = Memory.read (Memory.write [] 3 1#8) i) := ⟨by decide, by decide, fun _ => rfl⟩

theorem witness_FaultMarkIsSticky :
    (step (before (cmd .init) faulted) = .next restarted ∧ faulted.faultMark = true) ∧
    (step (before (cmd .block) idle13) = .next faulted ∧ faulted.phase = .fault ∧ idle13.phase ≠ .fault) :=
  ⟨⟨rfl, by decide +kernel⟩, ⟨rfl, by decide +kernel⟩⟩

/-- States that break R25, which no run reaches. -/
theorem witness_ReadsPastTheBufferStop :
    (({ body12 with cursor := 12#32 } : State).phase = .body ∧ 12 ≤ ({ body12 with cursor := 12#32 } : State).rem.toNat ∧
      ({ body12 with cursor := 12#32 } : State).bufSize < 12 + 12) ∧
    (({ body1 with cursor := 16#32 } : State).phase = .body ∧ ({ body1 with cursor := 16#32 } : State).rem.toNat = 1 ∧
      ({ body1 with cursor := 16#32 } : State).bufSize < 16 + 1) := by decide +kernel

end Sys2Proof.Machine.Tests
end

section
/-! PROOF. The family of 10_state.md: what a command and a step can do to the registers, and the statements about reset,
STATUS, PHASE, ERR and the invariant that follow from it. -/

namespace Sys2Proof.Machine

/-! ## RUN in closed form -/

/-- The state in which RUN's loop (R112) ends when LEN fits: `floor(LEN / 12)` blocks folded into the started hash. -/
def loopEnd (s : State) : State :=
  { (startHash (clearErr s)).setAcc (hashLoop s.byteAt (s.len.toNat / 12) 0 seeds) with
    cursor := BitVec.ofNat 32 (12 * (s.len.toNat / 12))
    rem := BitVec.ofNat 32 (s.len.toNat % 12) }

@[simp] theorem loopEnd_acc (s : State) : (loopEnd s).acc = hashLoop s.byteAt (s.len.toNat / 12) 0 seeds := rfl
@[simp] theorem loopEnd_klen (s : State) : (loopEnd s).klen = s.len := rfl
@[simp] theorem loopEnd_digest (s : State) : (loopEnd s).digest = 0 := rfl
@[simp] theorem loopEnd_phase (s : State) : (loopEnd s).phase = .body := rfl
@[simp] theorem loopEnd_err (s : State) : (loopEnd s).err = .none := rfl
@[simp] theorem loopEnd_len (s : State) : (loopEnd s).len = s.len := rfl
@[simp] theorem loopEnd_ibuf (s : State) : (loopEnd s).ibuf = s.ibuf := rfl
@[simp] theorem loopEnd_cfg (s : State) : (loopEnd s).cfg = s.cfg := rfl
@[simp] theorem loopEnd_pending (s : State) : (loopEnd s).pending = s.pending := rfl
@[simp] theorem loopEnd_replies (s : State) : (loopEnd s).replies = s.replies := rfl
@[simp] theorem loopEnd_faultMark (s : State) : (loopEnd s).faultMark = s.faultMark := rfl
@[simp] theorem loopEnd_bufSize (s : State) : (loopEnd s).bufSize = s.bufSize := rfl
@[simp] theorem loopEnd_byteAt (s : State) : (loopEnd s).byteAt = s.byteAt := rfl

@[simp] theorem loopEnd_cursor_toNat (s : State) : (loopEnd s).cursor.toNat = 12 * (s.len.toNat / 12) := by
  have := s.len.isLt
  exact Nat.mod_eq_of_lt (by omega)

@[simp] theorem loopEnd_rem_toNat (s : State) : (loopEnd s).rem.toNat = s.len.toNat % 12 := by
  have := s.len.isLt
  exact Nat.mod_eq_of_lt (by omega)

/-- RUN's loop from the started hash ends in `loopEnd`. -/
theorem blockLoop_startHash {s : State} (h : s.len.toNat ≤ s.bufSize) :
    blockLoop (s.len.toNat / 12) (startHash (clearErr s)) = .next (loopEnd s) := by
  obtain ⟨u, hloop, hacc, hcur, hrem, hrest⟩ := blockLoop_runs (s.len.toNat / 12) (startHash (clearErr s)) rfl rfl
    ⟨by simp, by simp, h⟩ (by simp [hashLoop])
  rw [hloop _ (Nat.le_refl _)]
  have hcur' : u.cursor = (loopEnd s).cursor := BitVec.eq_of_toNat_eq (by rw [hcur, loopEnd_cursor_toNat]; simp)
  have hrem' : u.rem = (loopEnd s).rem := BitVec.eq_of_toNat_eq (by rw [hrem, loopEnd_rem_toNat]; simp)
  have hacc' : u.acc = (loopEnd s).acc := by simpa using hacc
  obtain ⟨ha, hb, hc⟩ := (Triple.mk.injEq ..).mp hacc'
  have hu := congrArg (fun v : State => { v with a := u.a, b := u.b, c := u.c, cursor := u.cursor, rem := u.rem }) hrest
  have hend : u = loopEnd s := by
    refine Eq.trans hu ?_
    rw [ha, hb, hc, hcur', hrem']
    rfl
  rw [hend]

/-- RUN with a length that fits always completes, and this is the state it leaves. -/
theorem performRun_completes {s : State} (h : s.len.toNat ≤ s.bufSize) :
    performRun s = .next (finishHash (foldTail (loopEnd s))) := by
  have htail : performTail (loopEnd s) = .next (foldTail (loopEnd s)) :=
    performTail_ok rfl (by rw [loopEnd_rem_toNat]; omega)
      (.inr (by rw [loopEnd_cursor_toNat, loopEnd_rem_toNat, loopEnd_bufSize]; omega))
  rw [performRun_fits h, blockLoop_startHash h, andThen_next, htail, andThen_next, performFinal_ok rfl]

/-! ## What a command and a step can do, as relations with named cases -/

/-- Every way command `i` can take `s` to a next state. -/
inductive CommandEffect (s : State) : Instr → State → Prop
  /-- In FAULT (R126). -/
  | ignored {i} (hinit : i ≠ .init) (hrun : i ≠ .run) (hp : s.phase = .fault) : CommandEffect s i s
  /-- Out of order (R124). -/
  | sequence {i} (hinit : i ≠ .init) (hrun : i ≠ .run) (hp : s.phase ≠ .fault) (hl : legal i s = false) :
      CommandEffect s i (raiseFault .sequence s)
  /-- LEN > BUF_SIZE (R125). -/
  | bounds {i} (hi : i = .init ∨ i = .run) (hl : s.bufSize < s.len.toNat) :
      CommandEffect s i (raiseFault .bounds (clearErr s))
  /-- INIT accepted (R90). -/
  | init (hl : s.len.toNat ≤ s.bufSize) : CommandEffect s .init (startHash (clearErr s))
  /-- BLOCK accepted (R92). -/
  | block (hp : s.phase = .body) (hr : 12 ≤ s.rem.toNat) (hb : s.cursor.toNat + 12 ≤ s.bufSize) :
      CommandEffect s .block (foldBlock s)
  /-- TAIL accepted (R100). -/
  | tail (hp : s.phase = .body) (hr : s.rem.toNat ≤ 11)
      (hb : s.rem.toNat = 0 ∨ s.cursor.toNat + s.rem.toNat ≤ s.bufSize) : CommandEffect s .tail (foldTail s)
  /-- FINAL accepted (R110). -/
  | final (hp : s.phase = .tailed) : CommandEffect s .final (finishHash s)
  /-- RUN accepted (R112). -/
  | run (hl : s.len.toNat ≤ s.bufSize) : CommandEffect s .run (finishHash (foldTail (loopEnd s)))

/-- A command that goes on does one of the things of `CommandEffect`. -/
theorem commandEffect_of_exec {i : Instr} {s t : State} (h : exec i s = .next t) : CommandEffect s i t := by
  rcases exec_next_cases h with ⟨hi, hr, hp, rfl⟩ | ⟨hi, hr, hp, hl, rfl⟩ | ⟨hi, hl, rfl⟩ | ⟨rfl, hl, rfl⟩ |
    ⟨rfl, hp, hr, hb, rfl⟩ | ⟨rfl, hp, hr, hb, rfl⟩ | ⟨rfl, hp, rfl⟩ | ⟨rfl, hl⟩
  · exact .ignored hi hr hp
  · exact .sequence hi hr hp hl
  · exact .bounds hi hl
  · exact .init hl
  · exact .block hp hr hb
  · exact .tail hp hr hb
  · exact .final hp
  · rw [exec_run, performRun_completes hl] at h
    cases h
    exact .run hl

/-- Every way a step can take `s`, with the event `e` taken off its list and `rest` left, to a next state. -/
inductive StepEffect (s : State) (rest : List HostEvent) : HostEvent → State → Prop
  /-- A command's CMD write (R32). -/
  | command {i t} (h : CommandEffect (s.withPending rest) i t) : StepEffect s rest (cmdWrite s.cfg (encode i)) t
  /-- A CMD write of no command, in FAULT (R126). -/
  | illegalIgnored {w} (hd : ∀ i, decode w ≠ .ok i) (hp : s.phase = .fault) :
      StepEffect s rest (cmdWrite s.cfg w) (s.withPending rest)
  /-- A CMD write of no command (R123). -/
  | illegal {w} (hd : ∀ i, decode w ≠ .ok i) (hp : s.phase ≠ .fault) :
      StepEffect s rest (cmdWrite s.cfg w) (raiseFault .illegalCmd (s.withPending rest))
  /-- A write to LEN (R31). -/
  | lenWrite {v} : StepEffect s rest (.writeReg 32 (s.cfg.regBase + 4) v) { s.withPending rest with len := v }
  /-- A write the window ignores (R33, R42). -/
  | ignoredWrite {e} (he : ∀ w, e ≠ cmdWrite s.cfg w) : StepEffect s rest e (s.withPending rest)
  /-- A host read (R48). -/
  | read {e r} (he : ∀ w, e ≠ cmdWrite s.cfg w) : StepEffect s rest e (reply r (s.withPending rest))
  /-- A host write to IBUF (R41). -/
  | poke {i v} (hi : i < s.bufSize) :
      StepEffect s rest (.writeIbuf (s.cfg.ibufBase + i) v) (pokeByte i v (s.withPending rest))
  /-- Reset (R140). -/
  | reset : StepEffect s rest .reset (resetBlock (s.withPending rest))

/-- A step that goes on does one of the things of `StepEffect`. -/
theorem stepEffect_of_step {s t : State} {e rest} (hp : s.pending = e :: rest) (h : step s = .next t) :
    StepEffect s rest e t := by
  rcases step_next_cases hp h with ⟨i, rfl, hx⟩ | ⟨w, rfl, hd, hf, rfl⟩ | ⟨w, rfl, hd, hf, rfl⟩ | ⟨v, rfl, rfl⟩ |
    ⟨he, rfl⟩ | ⟨r, rfl, he⟩ | ⟨i, v, rfl, hi, rfl⟩ | ⟨rfl, rfl⟩
  · exact .command (commandEffect_of_exec hx)
  · exact .illegalIgnored hd hf
  · exact .illegal hd hf
  · exact .lenWrite
  · exact .ignoredWrite he
  · exact .read he
  · exact .poke hi
  · exact .reset

/-- Legality does not look at the host's list. -/
@[simp] theorem legal_withPending (i : Instr) (s : State) (p : List HostEvent) : legal i (s.withPending p) = legal i s := by
  cases i <;> rfl

/-- A step on a CMD write is that write, on the state with the access taken off the list (R32, R53). -/
theorem step_cmdWrite {s : State} {rest : List HostEvent} {w : Word} (hp : s.pending = cmdWrite s.cfg w :: rest) :
    step s = commandWrite w (s.withPending rest) := by
  rw [step_cons hp]
  exact perform_cmdWrite (s.withPending rest) w

/-! ## The invariant -/

/-- The host's list is outside the invariant (log 2), and so are its replies (log 3). -/
theorem Inv.withPending {s : State} (h : Inv s) (p : List HostEvent) : Inv (s.withPending p) := { h with }

theorem Inv.reply {s : State} (h : Inv s) (r : Reply) : Inv (reply r s) := { h with }

/-- LEN is outside the invariant: it matters only when INIT latches it (R31). -/
theorem Inv.writeLen {s : State} (h : Inv s) (v : Word) : Inv { s with len := v } := { h with }

/-- A host write inside IBUF keeps IBUF canonical and inside the buffer, and touches nothing else. -/
theorem Inv.pokeByte {s : State} (h : Inv s) {i : Nat} (v : Byte) (hi : i < s.bufSize) : Inv (pokeByte i v s) :=
  { h with
    canonical := Memory.write_wf i v h.canonical
    inBuffer := Memory.write_below h.inBuffer hi }

/-- After the fault action ERR is nonzero and PHASE is FAULT, whatever they were before (R122). -/
theorem raiseFault_agrees (s : State) {code : Err} (hc : code ≠ .none) :
    (raiseFault code s).err = .none ↔ (raiseFault code s).phase ≠ .fault := by
  by_cases hs : s.err = .none <;> simp [hs, hc]

/-- In FAULT all that is left of the invariant is IBUF's form, a nonzero ERR and the mark, and the fault action gives the
last two (R122). -/
theorem inv_raiseFault {s : State} {code : Err} (hwf : Memory.wf s.ibuf = true) (hin : Memory.below s.ibuf s.bufSize = true)
    (hcode : code ≠ .none) : Inv (raiseFault code s) where
  canonical := hwf
  inBuffer := hin
  errPhase := raiseFault_agrees s hcode
  idleReset := nofun
  counters := nofun
  tailLength := nofun
  digestCleared := nofun
  digestDone := nofun
  marked _ := rfl

theorem Inv.raiseFault {s : State} (h : Inv s) {code : Err} (hcode : code ≠ .none) : Inv (raiseFault code s) :=
  inv_raiseFault h.canonical h.inBuffer hcode

theorem Inv.resetBlock {s : State} (h : Inv s) : Inv (resetBlock s) where
  canonical := h.canonical
  inBuffer := h.inBuffer
  errPhase := by simp
  idleReset _ := ⟨rfl, rfl, rfl, rfl, rfl⟩
  counters := nofun
  tailLength := nofun
  digestCleared := nofun
  digestDone := nofun
  marked := nofun

/-- A state in BODY keeps the invariant when its counters do and DIGEST and ERR are clear. -/
theorem inv_of_body {s : State} (hp : s.phase = .body) (hwf : Memory.wf s.ibuf = true)
    (hin : Memory.below s.ibuf s.bufSize = true) (herr : s.err = .none) (hcount : s.countersOk) (hdig : s.digest = 0) :
    Inv s where
  canonical := hwf
  inBuffer := hin
  errPhase := by simp [hp, herr]
  idleReset := by simp [hp]
  counters _ := hcount
  tailLength := by simp [hp]
  digestCleared _ := hdig
  digestDone := by simp [hp]
  marked := by simp [hp]

/-- INIT accepted, from any phase: LEN <= BUF_SIZE is what R25 asks of KLEN. -/
theorem Inv.startHash {s : State} (h : Inv s) (hl : s.len.toNat ≤ s.bufSize) : Inv (startHash (clearErr s)) :=
  inv_of_body rfl h.canonical h.inBuffer rfl ⟨by simp, by simp, hl⟩ rfl

/-- The end of RUN's loop. -/
theorem Inv.loopEnd {s : State} (h : Inv s) (hl : s.len.toNat ≤ s.bufSize) : Inv (loopEnd s) :=
  inv_of_body rfl h.canonical h.inBuffer rfl
    ⟨by simp only [loopEnd_cursor_toNat, loopEnd_rem_toNat, loopEnd_klen]; omega, by simp, hl⟩ rfl

/-- Outside FAULT, ERR is clear. -/
theorem Inv.err_none {s : State} (h : Inv s) (hp : s.phase ≠ .fault) : s.err = .none := h.errPhase.2 hp

/-- BLOCK accepted: 12 moves from REM to CURSOR (R92). -/
theorem Inv.foldBlock {s : State} (h : Inv s) (hp : s.phase = .body) (hr : 12 ≤ s.rem.toNat) : Inv (foldBlock s) := by
  obtain ⟨hsum, h12, hk⟩ := h.counters (.inl hp)
  obtain ⟨hcur, hrem⟩ := foldBlock_counters hr hsum
  have hcount : (Machine.foldBlock s).countersOk := ⟨by rw [foldBlock_klen]; omega, by omega, hk⟩
  exact inv_of_body hp h.canonical h.inBuffer (h.err_none (by simp [hp])) hcount (h.digestCleared (.inl hp))

/-- TAIL accepted: the counters stay, and TAIL's own check bounds REM (R100). -/
theorem Inv.foldTail {s : State} (h : Inv s) (hp : s.phase = .body) (hr : s.rem.toNat ≤ 11) : Inv (foldTail s) where
  canonical := h.canonical
  inBuffer := h.inBuffer
  errPhase := by simp [h.err_none, hp]
  idleReset := nofun
  counters _ := h.counters (.inl hp)
  tailLength _ := hr
  digestCleared _ := h.digestCleared (.inl hp)
  digestDone := nofun
  marked := nofun

/-- FINAL accepted: DIGEST is the new C (R110). -/
theorem Inv.finishHash {s : State} (h : Inv s) (hp : s.phase = .tailed) : Inv (finishHash s) where
  canonical := h.canonical
  inBuffer := h.inBuffer
  errPhase := by simp [h.err_none, hp]
  idleReset := nofun
  counters _ := h.counters (.inr (.inl hp))
  tailLength _ := h.tailLength (.inl hp)
  digestCleared := nofun
  digestDone _ := rfl
  marked := nofun

/-- Every command keeps the invariant. -/
theorem CommandEffect.inv {s t : State} {i : Instr} (h : CommandEffect s i t) (hs : Inv s) : Inv t := by
  cases h with
  | ignored _ _ _ => exact hs
  | sequence _ _ _ _ => exact hs.raiseFault (by decide)
  | bounds _ _ => exact inv_raiseFault hs.canonical hs.inBuffer (by decide)
  | init hl => exact hs.startHash hl
  | block hp hr _ => exact hs.foldBlock hp hr
  | tail hp hr _ => exact hs.foldTail hp hr
  | final hp => exact hs.finishHash hp
  | run hl => exact ((hs.loopEnd hl).foldTail rfl (by rw [loopEnd_rem_toNat]; omega)).finishHash rfl

/-- Every event keeps the invariant. -/
theorem StepEffect.inv {s t : State} {rest : List HostEvent} {e : HostEvent} (h : StepEffect s rest e t) (hs : Inv s) :
    Inv t := by
  have hs' := hs.withPending rest
  cases h with
  | command h => exact h.inv hs'
  | illegalIgnored _ _ => exact hs'
  | illegal _ _ => exact hs'.raiseFault (by decide)
  | lenWrite => exact hs'.writeLen _
  | ignoredWrite _ => exact hs'
  | read _ => exact hs'.reply _
  | poke hi => exact hs'.pokeByte _ hi
  | reset => exact hs'.resetBlock

/-- Settles O49: each effect of a step keeps the invariant, and with nothing pending the step changes nothing. -/
theorem everyStepKeepsTheInvariant : Obligations.EveryStepKeepsTheInvariant := by
  intro s t hs h
  cases hp : s.pending with
  | nil =>
    rw [step_idle hp] at h
    cases h
    exact hs
  | cons e rest => exact (stepEffect_of_step hp h).inv hs

/-! ## Reset and a CMD write -/

@[simp] theorem resetBlock_status (s : State) : (resetBlock s).status = 0 := show State.reset.status = 0 by decide

/-- Settles O10: reset's step is `resetBlock`, whose fields the laws of State give. -/
theorem resetGivesEveryRegister : Obligations.ResetGivesEveryRegister := by
  refine ⟨fun s => ⟨resetBlock s, rfl, ?_⟩, by decide⟩
  exact ⟨rfl, rfl, rfl, rfl, rfl, rfl, rfl, rfl, rfl, rfl, resetBlock_status s, rfl, fun _ => rfl⟩

/-- A 32-bit table row is its word. -/
theorem tableWord_toNat (w : Word) : tableWord 32 w.toNat = w := by
  rw [tableWord, Nat.mod_eq_of_lt w.isLt, BitVec.ofNat_toNat, BitVec.setWidth_eq]

/-- Settles O46: a CMD write's step is `commandWrite`, which runs the decoded command. -/
theorem stepRunsTheDecodedCommand : Obligations.StepRunsTheDecodedCommand := by
  constructor
  · intro s rest w i hd hp
    rw [step_cmdWrite hp, commandWrite, hd]
    rfl
  · intro s w i hd
    rw [State.withFetchWord, step_push, perform_cmdWrite, tableWord_toNat, commandWrite, hd]

theorem cmdWrite_congr (cfg : Config) {i j : Instr} (h : i = j) : cmdWrite cfg (encode i) = cmdWrite cfg (encode j) := by
  rw [h]

/-- A step on a command's CMD write does one of the things the command can do. -/
theorem commandEffect_of_step {s t : State} {i : Instr} {rest : List HostEvent}
    (hp : s.pending = cmdWrite s.cfg (encode i) :: rest) (h : step s = .next t) :
    CommandEffect (s.withPending rest) i t :=
  commandEffect_of_exec (by rw [← h, step_cmdWrite hp, commandWrite_encode])

/-- The reset state keeps the invariant: no register is set and IBUF lists nothing. -/
theorem inv_reset (cfg : Config) : Inv { State.reset with cfg := cfg } where
  canonical := reset_ibuf_wf
  inBuffer := rfl
  errPhase := iff_of_true rfl nofun
  idleReset _ := ⟨rfl, rfl, rfl, rfl, rfl⟩
  counters := nofun
  tailLength := nofun
  digestCleared := nofun
  digestDone := nofun
  marked := nofun

/-- Settles O48: the reset state keeps the invariant, and in IDLE no hash is in progress. -/
theorem invariantHoldsAtReset : Obligations.InvariantHoldsAtReset :=
  fun cfg => ⟨inv_reset cfg, nofun, nofun, nofun⟩

/-! ## STATUS -/

/-- STATUS bit by bit: PHASE in [2:0], ERR in [7:4], 0 elsewhere (R28, R29, R30). -/
theorem status_getLsbD (s : State) (n : Nat) : s.status.getLsbD n =
    if n < 3 then s.phase.code.getLsbD n else if n < 4 then false
    else if n < 8 then s.err.code.getLsbD (n - 4) else false := by
  simp only [State.status, BitVec.getLsbD_append, BitVec.getLsbD_zero, Nat.sub_sub]
  split
  · rfl
  · grind

theorem status_phaseField (s : State) : BitVec.extractLsb' 0 3 s.status = s.phase.code := by
  ext i hi
  rw [BitVec.getElem_extractLsb', Nat.zero_add, status_getLsbD, if_pos hi, BitVec.getLsbD_eq_getElem hi]

theorem status_errField (s : State) : BitVec.extractLsb' 4 4 s.status = s.err.code := by
  ext i hi
  rw [BitVec.getElem_extractLsb', status_getLsbD, if_neg (by omega), if_neg (by omega), if_pos (by omega),
    Nat.add_sub_cancel_left, BitVec.getLsbD_eq_getElem hi]

/-- A host write to STATUS is ignored (R30, R33). -/
theorem step_writeStatus (s : State) (v : Word) : step (s.push (.writeReg 32 (s.cfg.regBase + 0x08) v)) = .next s := by
  rw [step_push, perform, windowAccess_at _ (by decide) (by decide)]
  rfl

theorem phaseCodes : [Phase.idle, .body, .tailed, .done, .fault].map Phase.code = [0, 1, 2, 3, 4] := rfl
theorem errCodes : [Err.none, .illegalCmd, .sequence, .bounds].map Err.code = [0, 1, 2, 3] := rfl

theorem phaseCode_le (p : Phase) : p.code.toNat ≤ 4 := by cases p <;> decide
theorem errCode_le (e : Err) : e.code.toNat ≤ 3 := by cases e <;> decide

/-- Settles O11: the fields and the zero bits from STATUS bit by bit. -/
theorem statusHoldsPhaseAndErr : Obligations.StatusHoldsPhaseAndErr := by
  refine ⟨fun s => ⟨status_phaseField s, status_errField s, (status_getLsbD s 3).trans rfl, fun n hn => ?_⟩,
    step_writeStatus, phaseCodes, errCodes⟩
  rw [status_getLsbD, if_neg (by omega), if_neg (by omega), if_neg (by omega)]

/-! ## PHASE -/

/-- The command that enters each phase (R28). -/
theorem CommandEffect.phase_entered {s t : State} {i : Instr} (h : CommandEffect s i t) (hne : t.phase ≠ s.phase) :
    t.phase ≠ .idle ∧ (t.phase = .body → i = .init) ∧ (t.phase = .tailed → i = .tail) ∧
    (t.phase = .done → i = .final ∨ i = .run) ∧ (t.phase = .fault → t.faultMark = true) := by
  cases h with
  | ignored | block => exact absurd rfl hne
  | sequence | bounds | init | tail | final | run => simp

/-- BODY stays BODY across a BLOCK that does not fault (R28). -/
theorem CommandEffect.block_keeps_body {s t : State} (h : CommandEffect s .block t) (hb : s.phase = .body)
    (ht : t.phase ≠ .fault) : t.phase = .body := by
  cases h with
  | ignored | block => exact hb
  | sequence => exact absurd rfl ht
  | bounds hi => simp at hi

/-- The event that enters each phase (R28). -/
theorem StepEffect.phase_entered {s t : State} {rest : List HostEvent} {e : HostEvent} (h : StepEffect s rest e t)
    (hne : t.phase ≠ s.phase) :
    (t.phase = .idle → e = .reset) ∧
    (t.phase = .body → e = cmdWrite s.cfg (encode .init)) ∧
    (t.phase = .tailed → e = cmdWrite s.cfg (encode .tail)) ∧
    (t.phase = .done → e = cmdWrite s.cfg (encode .final) ∨ e = cmdWrite s.cfg (encode .run)) ∧
    (t.phase = .fault → (∃ w, e = cmdWrite s.cfg w) ∧ t.faultMark = true) := by
  cases h with
  | @command i _ h =>
    obtain ⟨hidle, hbody, htailed, hdone, hfault⟩ := h.phase_entered hne
    exact ⟨fun hp => absurd hp hidle, fun hp => cmdWrite_congr s.cfg (hbody hp),
      fun hp => cmdWrite_congr s.cfg (htailed hp),
      fun hp => (hdone hp).imp (cmdWrite_congr s.cfg) (cmdWrite_congr s.cfg), fun hp => ⟨⟨_, rfl⟩, hfault hp⟩⟩
  | illegal => simp
  | reset => simp
  | illegalIgnored | lenWrite | ignoredWrite | read | poke => exact absurd rfl hne

/-- Settles O12: each phase's entry from the step's effects, and BLOCK's own effect on BODY. -/
theorem phasesAreEnteredAsListed : Obligations.PhasesAreEnteredAsListed := by
  intro s t e rest hp h
  refine ⟨(stepEffect_of_step hp h).phase_entered, ?_, ⟨status_phaseField t, phaseCode_le _, phaseCodes⟩, step_writeStatus t⟩
  rintro rfl
  exact (commandEffect_of_step hp h).block_keeps_body

/-! ## ERR -/

/-- Only INIT and RUN change an ERR that holds a fault (R29). -/
theorem CommandEffect.err_kept {s t : State} {i : Instr} (h : CommandEffect s i t) (hs : s.err ≠ .none)
    (hne : t.err ≠ s.err) : i = .init ∨ i = .run := by
  cases h with
  | ignored | block | tail | final => exact absurd rfl hne
  | sequence => simp [hs] at hne
  | bounds hi => exact hi
  | init => exact .inl rfl
  | run => exact .inr rfl

/-- What a command that changes ERR has done wrong (R29, R124, R125). -/
theorem CommandEffect.err_cause {s t : State} {i : Instr} (h : CommandEffect s i t) (hne : t.err ≠ s.err) :
    t.err ≠ .illegalCmd ∧ (t.err = .sequence → i ≠ .init ∧ i ≠ .run ∧ legal i s = false) ∧
    (t.err = .bounds → (i = .init ∨ i = .run) ∧ s.bufSize < s.len.toNat) := by
  cases h with
  | ignored | block | tail | final => exact absurd rfl hne
  | sequence hinit hrun _ hl =>
    have hs : s.err = .none := by by_contra hs; simp [hs] at hne
    simp [hs, hinit, hrun, hl]
  | bounds hi hl => simp [hi, hl]
  | init | run => simp

/-- ERR and PHASE agree after every command (R29). -/
theorem CommandEffect.err_agrees {s t : State} {i : Instr} (h : CommandEffect s i t)
    (hs : s.err = .none ↔ s.phase ≠ .fault) : t.err = .none ↔ t.phase ≠ .fault := by
  cases h with
  | ignored | block => exact hs
  | sequence | bounds => exact raiseFault_agrees _ (by decide)
  | init | run => simp
  | tail hp | final hp => simp [hs, hp]

/-- A step that changes an ERR that holds a fault is reset, INIT or RUN (R29). -/
theorem StepEffect.err_kept {s t : State} {rest : List HostEvent} {e : HostEvent} (h : StepEffect s rest e t)
    (hs : s.err ≠ .none) (hne : t.err ≠ s.err) :
    e = .reset ∨ e = cmdWrite s.cfg (encode .init) ∨ e = cmdWrite s.cfg (encode .run) := by
  cases h with
  | command h => exact .inr ((h.err_kept hs hne).imp (cmdWrite_congr s.cfg) (cmdWrite_congr s.cfg))
  | illegal => simp [hs] at hne
  | reset => exact .inl rfl
  | illegalIgnored | lenWrite | ignoredWrite | read | poke => exact absurd rfl hne

/-- What causes each code of ERR (R29). -/
theorem StepEffect.err_cause {s t : State} {rest : List HostEvent} {e : HostEvent} (h : StepEffect s rest e t)
    (hne : t.err ≠ s.err) :
    (t.err = .illegalCmd → ∃ w, e = cmdWrite s.cfg w ∧ ∀ i, decode w ≠ .ok i) ∧
    (t.err = .sequence → ∃ i, (i = .block ∨ i = .tail ∨ i = .final) ∧ e = cmdWrite s.cfg (encode i) ∧ legal i s = false) ∧
    (t.err = .bounds → (e = cmdWrite s.cfg (encode .init) ∨ e = cmdWrite s.cfg (encode .run)) ∧
      s.bufSize < s.len.toNat) := by
  cases h with
  | @command i _ h =>
    obtain ⟨hillegal, hseq, hbounds⟩ := h.err_cause hne
    refine ⟨fun he => absurd he hillegal, fun he => ?_, fun he => ?_⟩
    · obtain ⟨hinit, hrun, hl⟩ := hseq he
      refine ⟨i, ?_, rfl, by simpa using hl⟩
      cases i <;> simp at hinit hrun ⊢
    · obtain ⟨hi, hl⟩ := hbounds he
      exact ⟨hi.imp (cmdWrite_congr s.cfg) (cmdWrite_congr s.cfg), hl⟩
  | @illegal w hd =>
    have hs : s.err = .none := by by_contra hs; simp [hs] at hne
    exact ⟨fun _ => ⟨w, rfl, hd⟩, by simp [hs], by simp [hs]⟩
  | reset => simp
  | illegalIgnored | lenWrite | ignoredWrite | read | poke => exact absurd rfl hne

/-- ERR and PHASE agree after every step (R29). -/
theorem StepEffect.err_agrees {s t : State} {rest : List HostEvent} {e : HostEvent} (h : StepEffect s rest e t)
    (hs : s.err = .none ↔ s.phase ≠ .fault) : t.err = .none ↔ t.phase ≠ .fault := by
  cases h with
  | command h => exact h.err_agrees hs
  | illegal => exact raiseFault_agrees _ (by decide)
  | reset => simp
  | illegalIgnored | lenWrite | ignoredWrite | read | poke => exact hs

/-- Settles O13: what keeps ERR, what causes each code and the agreement with PHASE, each from the step's effects. -/
theorem errHoldsTheFirstFault : Obligations.ErrHoldsTheFirstFault := by
  intro s t e rest hp h
  have heff := stepEffect_of_step hp h
  exact ⟨heff.err_kept, heff.err_cause, heff.err_agrees, ⟨status_errField t, errCode_le _, errCodes⟩, step_writeStatus t⟩

/-! ## Which event writes which register -/

/-- Which command writes which register (R20's column "written by"), and what none writes. -/
theorem CommandEffect.frame {s t : State} {i : Instr} (h : CommandEffect s i t) :
    (t.klen ≠ s.klen → i = .init ∨ i = .run) ∧
    (t.cursor ≠ s.cursor ∨ t.rem ≠ s.rem → i = .init ∨ i = .block ∨ i = .run) ∧
    (t.digest ≠ s.digest → i = .init ∨ i = .final ∨ i = .run) ∧
    t.len = s.len ∧ t.cfg = s.cfg ∧ t.pending = s.pending := by
  cases h with
  | ignored | sequence | bounds | init | block | tail | final | run => simp

/-- Settles O36: the commands by their frame; every other event but reset, of the registers named, changes LEN or PHASE alone. -/
theorem registersAreWrittenOnlyAsListed : Obligations.RegistersAreWrittenOnlyAsListed := by
  intro s t e rest hp h hreset
  cases stepEffect_of_step hp h with
  | @command i _ h =>
    obtain ⟨hklen, hcount, hdigest, hlen, hcfg, hpending⟩ := h.frame
    have hcmd {j : Instr} : i = j → cmdWrite s.cfg (encode i) = cmdWrite s.cfg (encode j) := cmdWrite_congr s.cfg
    exact ⟨fun _ => ⟨i, rfl⟩, fun hne => (hklen hne).imp hcmd hcmd, fun hne => (hcount hne).imp hcmd (.imp hcmd hcmd),
      fun hne => (hdigest hne).imp hcmd (.imp hcmd hcmd), fun _ => ⟨_, rfl⟩, fun hne => absurd hlen hne, hcfg, hpending⟩
  | reset => exact absurd rfl hreset
  | lenWrite => simp [State.acc]
  | illegalIgnored | illegal | ignoredWrite | read | poke => simp

end Sys2Proof.Machine
end

section
/-! PROOF. The family of 20_memory.md: words and their byte lanes, which bytes a command reads and that it writes none, IBUF as
canonical data, and the host's accesses to the register window and to IBUF. -/

namespace Sys2Proof.Machine

/-! ## Words and byte lanes -/

/-- Four bytes packed by shifts (R43, R44) are the bytes side by side, the last on top. -/
theorem wordOfBytes_eq_append (b0 b1 b2 b3 : Byte) : wordOfBytes b0 b1 b2 b3 = b3 ++ b2 ++ b1 ++ b0 := by
  have h : (b3 ++ b2 ++ b1 ++ b0).setWidth 32 = zext32 b3 <<< 24 ||| zext32 b2 <<< 16 ||| zext32 b1 <<< 8 ||| zext32 b0 :=
    BitVec.setWidth_append_append_append_eq_shiftLeft_setWidth_or
  have reversed (x0 x1 x2 x3 : Word) : x0 ||| x1 ||| x2 ||| x3 = x3 ||| x2 ||| x1 ||| x0 := by ac_rfl
  rw [BitVec.setWidth_eq] at h
  rw [h, wordOfBytes, reversed]

/-- Lane `j` holds bits `[8j+7:8j]` (R44). -/
theorem lane_getLsbD (w : Word) (j : Nat) {n : Nat} (hn : n < 8) : (lane w j).getLsbD n = w.getLsbD (8 * j + n) := by
  simp [lane, hn]

/-- The lanes of a word, put together, are the word. -/
theorem wordOfBytes_lanes (w : Word) : wordOfBytes (lane w 0) (lane w 1) (lane w 2) (lane w 3) = w := by
  have h32 : lane w 3 ++ lane w 2 = BitVec.extractLsb' 16 16 w := BitVec.extractLsb'_append_extractLsb'_eq_extractLsb' rfl
  have h321 : BitVec.extractLsb' 16 16 w ++ lane w 1 = BitVec.extractLsb' 8 24 w :=
    BitVec.extractLsb'_append_extractLsb'_eq_extractLsb' rfl
  have h3210 : BitVec.extractLsb' 8 24 w ++ lane w 0 = BitVec.extractLsb' 0 32 w :=
    BitVec.extractLsb'_append_extractLsb'_eq_extractLsb' rfl
  rw [wordOfBytes_eq_append, h32, h321, h3210, BitVec.extractLsb'_eq_self]

/-- The lanes of four bytes put together are the bytes. -/
theorem bytesOfWord_wordOfBytes (b0 b1 b2 b3 : Byte) : bytesOfWord (wordOfBytes b0 b1 b2 b3) = [b0, b1, b2, b3] := by
  have h0 : lane (b3 ++ b2 ++ b1 ++ b0) 0 = b0 := BitVec.extractLsb'_append_eq_right
  have h1 : lane (b3 ++ b2 ++ b1 ++ b0) 1 = b1 :=
    (BitVec.extractLsb'_append_eq_of_le (by decide)).trans BitVec.extractLsb'_append_eq_right
  have h2 : lane (b3 ++ b2 ++ b1 ++ b0) 2 = b2 :=
    (BitVec.extractLsb'_append_eq_of_le (by decide)).trans <|
      (BitVec.extractLsb'_append_eq_of_le (by decide)).trans BitVec.extractLsb'_append_eq_right
  have h3 : lane (b3 ++ b2 ++ b1 ++ b0) 3 = b3 :=
    (BitVec.extractLsb'_append_eq_of_le (by decide)).trans <|
      (BitVec.extractLsb'_append_eq_of_le (by decide)).trans BitVec.extractLsb'_append_eq_left
  rw [bytesOfWord, wordOfBytes_eq_append, h0, h1, h2, h3]

/-- Settles O4: the bits of a lane, and both round trips between a word and its lanes. -/
theorem byteLanesCarryTheWord : Obligations.ByteLanesCarryTheWord :=
  ⟨fun w j _ _ hn => lane_getLsbD w j hn, wordOfBytes_lanes, bytesOfWord_wordOfBytes⟩

/-- One more byte below a word's bytes counts them by 256. -/
theorem toNat_append_byte {n : Nat} (x : BitVec n) (b : Byte) : (x ++ b).toNat = 256 * x.toNat + b.toNat := by
  rw [BitVec.toNat_append, ← Nat.shiftLeft_add_eq_or_of_lt b.isLt, Nat.shiftLeft_eq, Nat.mul_comm]

/-- The value of four packed bytes (R43). -/
theorem wordOfBytes_toNat (b0 b1 b2 b3 : Byte) :
    (wordOfBytes b0 b1 b2 b3).toNat = b0.toNat + 256 * b1.toNat + 65536 * b2.toNat + 16777216 * b3.toNat := by
  rw [wordOfBytes_eq_append, toNat_append_byte, toNat_append_byte, toNat_append_byte]
  omega

/-- A widened byte shifted within the word keeps all its bits. -/
theorem zext32_shiftLeft_toNat (b : Byte) {n : Nat} (hn : n ≤ 24) : (zext32 b <<< n).toNat = 2 ^ n * b.toNat := by
  have hb := b.isLt
  have hpow : 2 ^ n ≤ 2 ^ 24 := Nat.pow_le_pow_right (by decide) hn
  have hlt : 2 ^ n * b.toNat < 2 ^ 32 :=
    Nat.lt_of_le_of_lt (Nat.mul_le_mul hpow (Nat.le_of_lt_succ hb)) (by decide)
  rw [BitVec.toNat_shiftLeft, BitVec.toNat_setWidth, Nat.mod_eq_of_lt (a := b.toNat) (by omega), Nat.shiftLeft_eq,
    Nat.mul_comm, Nat.mod_eq_of_lt hlt]

/-- The bytes do not overlap, so the source's `+` packs them as `|` does (R43). -/
theorem wordOfBytes_eq_sum (b0 b1 b2 b3 : Byte) :
    wordOfBytes b0 b1 b2 b3 = zext32 b0 + zext32 b1 <<< 8 + zext32 b2 <<< 16 + zext32 b3 <<< 24 := by
  apply BitVec.eq_of_toNat_eq
  have := b0.isLt
  have := b1.isLt
  have := b2.isLt
  have := b3.isLt
  rw [wordOfBytes_toNat, BitVec.toNat_add, BitVec.toNat_add, BitVec.toNat_add, zext32_shiftLeft_toNat b1 (by decide),
    zext32_shiftLeft_toNat b2 (by decide), zext32_shiftLeft_toNat b3 (by decide), BitVec.toNat_setWidth]
  omega

/-- Settles O9: LE32 is `wordOfBytes` of four neighbours; its value gives the worked example. -/
theorem wordsArePackedLeastSignificantFirst : Obligations.WordsArePackedLeastSignificantFirst := by
  intro k i
  refine ⟨rfl, wordOfBytes_eq_sum .., wordOfBytes_toNat .., fun h0 h1 h2 h3 => ?_⟩
  rw [le32, h0, h1, h2, h3]
  rfl

/-! ## IBUF as canonical data -/

theorem Memory.wfFrom_cons {lo k : Nat} {v : Byte} {m : Memory} :
    Memory.wfFrom lo ((k, v) :: m) = true ↔ lo ≤ k ∧ v ≠ Memory.unlisted ∧ Memory.wfFrom (k + 1) m = true := by
  simp [Memory.wfFrom, and_assoc]

@[simp] theorem Memory.read_nil (i : Nat) : Memory.read [] i = Memory.unlisted := rfl
@[simp] theorem Memory.read_head (k : Nat) (v : Byte) (m : Memory) : Memory.read ((k, v) :: m) k = v := by
  simp [Memory.read]

/-- The first listed index is the least that reads as listed. -/
theorem Memory.head_le {lo k i : Nat} {v : Byte} {m : Memory} (h : Memory.wfFrom lo ((k, v) :: m) = true)
    (hi : Memory.read ((k, v) :: m) i ≠ Memory.unlisted) : k ≤ i := by
  obtain ⟨_, hv, hm⟩ := Memory.wfFrom_cons.1 h
  by_contra hlt
  exact hi (Memory.read_below_start (Memory.wfFrom_cons.2 ⟨Nat.le_refl k, hv, hm⟩) (Nat.not_le.1 hlt))

/-- What follows an entry reads as the whole above the entry's index, and as unlisted up to it. -/
theorem Memory.read_tail {k : Nat} {m : Memory} (v : Byte) (i : Nat) (hm : Memory.wfFrom (k + 1) m = true) :
    Memory.read m i = if i ≤ k then Memory.unlisted else Memory.read ((k, v) :: m) i := by
  split
  · exact Memory.read_below_start hm (by omega)
  · rw [Memory.read, if_neg (by omega)]

/-- From any start, the canonical form has one list for each contents: the heads are the least listed index and its byte, and
the tails read alike again. -/
theorem Memory.ext_from : ∀ {m n : Memory} {lo : Nat}, Memory.wfFrom lo m = true → Memory.wfFrom lo n = true →
    (∀ i, Memory.read m i = Memory.read n i) → m = n
  | [], [], _, _, _, _ => rfl
  | [], (l, w) :: n, _, _, hn, h => absurd (by simpa using (h l).symm) (Memory.wfFrom_cons.1 hn).2.1
  | (k, v) :: m, [], _, hm, _, h => absurd (by simpa using h k) (Memory.wfFrom_cons.1 hm).2.1
  | (k, v) :: m, (l, w) :: n, lo, hm, hn, h => by
    obtain ⟨_, hv, hm'⟩ := Memory.wfFrom_cons.1 hm
    obtain ⟨_, hw, hn'⟩ := Memory.wfFrom_cons.1 hn
    have hkl : k ≤ l := Memory.head_le hm (by rwa [h l, Memory.read_head])
    have hlk : l ≤ k := Memory.head_le hn (by rwa [← h k, Memory.read_head])
    obtain rfl : k = l := Nat.le_antisymm hkl hlk
    obtain rfl : v = w := by simpa using h k
    rw [Memory.ext_from hm' hn' fun i => by rw [Memory.read_tail v i hm', Memory.read_tail v i hn', h i]]

/-- Settles O52: `Memory.ext_from` at start 0. -/
theorem canonicalMemoriesThatReadAlikeAreEqual : Obligations.CanonicalMemoriesThatReadAlikeAreEqual :=
  fun _ _ => Memory.ext_from

/-! ## The host's accesses as steps, and the four ways they stop -/

theorem step_push_readReg (s : State) (bits addr : Nat) : step (s.push (.readReg bits addr)) =
    windowAccess bits addr s fun off => .next (reply (.word (windowRead off s)) s) := rfl
theorem step_push_writeReg (s : State) (bits addr : Nat) (v : Word) : step (s.push (.writeReg bits addr v)) =
    windowAccess bits addr s fun off => windowWrite off v s := rfl
theorem step_push_readIbuf (s : State) (addr : Nat) : step (s.push (.readIbuf addr)) =
    ibufAccess addr s fun i => .next (reply (.byte (s.byteAt i)) s) := rfl
theorem step_push_writeIbuf (s : State) (addr : Nat) (v : Byte) : step (s.push (.writeIbuf addr v)) =
    ibufAccess addr s fun i => .next (pokeByte i v s) := rfl

/-- Outside the window, whatever the width (log 7). -/
theorem windowAccess_outside {s : State} {addr : Nat} (bits : Nat) (f : Nat → Result)
    (h : addr < s.cfg.regBase ∨ s.cfg.regBase + 0x40 ≤ addr) : windowAccess bits addr s f = .fault .outsideWindow := by
  rw [windowAccess, if_neg (by omega)]

/-- Not 32 bits wide, whatever the offset (R46; log 8). -/
theorem windowAccess_narrow {s : State} {bits off : Nat} (f : Nat → Result) (hoff : off < 0x40) (hb : bits ≠ 32) :
    windowAccess bits (s.cfg.regBase + off) s f = .refused .notWordAccess := by
  rw [windowAccess, if_pos (by omega), if_pos hb]

/-- At no multiple of 4 (R46; log 8). -/
theorem windowAccess_unaligned {s : State} {off : Nat} (f : Nat → Result) (hoff : off < 0x40) (h4 : off % 4 ≠ 0) :
    windowAccess 32 (s.cfg.regBase + off) s f = .refused .unalignedAccess := by
  rw [windowAccess, if_pos (by omega), if_neg (by omega), if_pos (by rwa [Nat.add_sub_cancel_left])]

/-- Outside IBUF (log 9). -/
theorem ibufAccess_outside {s : State} {addr : Nat} (f : Nat → Result)
    (h : addr < s.cfg.ibufBase ∨ s.cfg.ibufBase + s.bufSize ≤ addr) : ibufAccess addr s f = .fault .outsideIbuf := by
  rw [ibufAccess, if_neg (by omega)]

/-- Settles O55: the width is looked at before the offset. -/
theorem refusedAccessesAreNamed : Obligations.RefusedAccessesAreNamed := by
  intro s bits off v hoff
  simp only [step_push_readReg, step_push_writeReg]
  exact ⟨fun hb => ⟨windowAccess_narrow _ hoff hb, windowAccess_narrow _ hoff hb⟩,
    fun h4 => ⟨windowAccess_unaligned _ hoff h4, windowAccess_unaligned _ hoff h4⟩⟩

/-- Settles O43: each refused access has its name by `refusedAccessesAreNamed`. -/
theorem otherWindowAccessesAreRefused : Obligations.OtherWindowAccessesAreRefused := by
  intro s bits off v hoff hbad
  obtain ⟨hwidth, haligned⟩ := refusedAccessesAreNamed s bits off v hoff
  by_cases hb : bits = 32
  · subst hb
    obtain ⟨hread, hwrite⟩ := haligned (hbad.resolve_left (by simp))
    exact ⟨⟨_, hread⟩, _, hwrite⟩
  · obtain ⟨hread, hwrite⟩ := hwidth hb
    exact ⟨⟨_, hread⟩, _, hwrite⟩

/-- Settles O44: both spaces check the address first. -/
theorem accessesOutsideBothSpacesStop : Obligations.AccessesOutsideBothSpacesStop := by
  simp only [Obligations.AccessesOutsideBothSpacesStop, step_push_readReg, step_push_writeReg, step_push_readIbuf,
    step_push_writeIbuf]
  exact ⟨fun _ bits _ _ h => ⟨windowAccess_outside bits _ h, windowAccess_outside bits _ h⟩,
    fun _ _ _ h => ⟨ibufAccess_outside _ h, ibufAccess_outside _ h⟩⟩

/-! ## The host's accesses that go on -/

/-- A word read of the window gives what `windowRead` does. -/
theorem step_readReg (s : State) {off : Nat} (hoff : off < 0x40) (h4 : off % 4 = 0) :
    step (s.push (.readReg 32 (s.cfg.regBase + off))) = .next (reply (.word (windowRead off s)) s) := by
  rw [step_push_readReg, windowAccess_at _ hoff h4]

/-- A word write of the window does what `windowWrite` does. -/
theorem step_writeReg (s : State) (v : Word) {off : Nat} (hoff : off < 0x40) (h4 : off % 4 = 0) :
    step (s.push (.writeReg 32 (s.cfg.regBase + off) v)) = windowWrite off v s := by
  rw [step_push_writeReg, windowAccess_at _ hoff h4]

theorem step_readIbuf (s : State) {i : Nat} (hi : i < s.bufSize) :
    step (s.push (.readIbuf (s.cfg.ibufBase + i))) = .next (reply (.byte (s.byteAt i)) s) := by
  rw [step_push_readIbuf, ibufAccess_at _ hi]

theorem step_writeIbuf (s : State) (v : Byte) {i : Nat} (hi : i < s.bufSize) :
    step (s.push (.writeIbuf (s.cfg.ibufBase + i) v)) = .next (pokeByte i v s) := by
  rw [step_push_writeIbuf, ibufAccess_at _ hi]

/-- Settles O41: the step is `pokeByte`, which keeps the canonical form and is read back by `pokeByte_byteAt`. -/
theorem hostWriteChangesOneByte : Obligations.HostWriteChangesOneByte := by
  intro s i v hwf hi
  refine ⟨pokeByte i v s, step_writeIbuf s v hi, Memory.write_wf i v hwf, ?_, fun x hx => ?_, rfl⟩
  · rw [pokeByte_byteAt i v i hwf, if_pos rfl]
  · rw [pokeByte_byteAt i v x hwf, if_neg hx]

/-- The register window of R42: each offset with what a read of it gives. -/
def windowMap (s : State) : List (Nat × Word) :=
  [(0x00, 0#32), (0x04, s.len), (0x08, s.status), (0x0C, s.digest), (0x10, s.a), (0x14, s.b), (0x18, s.c), (0x1C, s.cursor),
    (0x20, s.rem), (0x24, s.klen), (0x28, 0#32), (0x2C, 0#32), (0x30, 0#32), (0x34, 0#32), (0x38, 0#32), (0x3C, 0#32)]

/-- The map's offsets are those of the 16 words, and `windowRead` gives its values. -/
theorem windowMap_eq (s : State) : windowMap s = ((List.range 16).map (4 * ·)).map fun off => (off, windowRead off s) := rfl

/-- A read at an offset of the map gives the map's value. -/
theorem step_readReg_windowMap {s : State} {p : Nat × Word} (hp : p ∈ windowMap s) :
    step (s.push (.readReg 32 (s.cfg.regBase + p.1))) = .next (reply (.word p.2) s) := by
  rw [windowMap_eq] at hp
  simp only [List.mem_map, List.mem_range] at hp
  obtain ⟨_, ⟨n, hn, rfl⟩, rfl⟩ := hp
  exact step_readReg s (by omega) (by omega)

/-- A write to a word other than CMD and LEN changes nothing (R33, R42). -/
theorem step_writeReg_ignored (s : State) (v : Word) {off : Nat} (hoff : off < 0x40) (h4 : off % 4 = 0) (hcmd : off ≠ 0)
    (hlen : off ≠ 4) : step (s.push (.writeReg 32 (s.cfg.regBase + off) v)) = .next s := by
  rw [step_writeReg s v hoff h4]
  rcases windowWrite_cases off v s with ⟨rfl, _⟩ | ⟨rfl, _⟩ | ⟨_, _, hw⟩
  · exact absurd rfl hcmd
  · exact absurd rfl hlen
  · exact hw

/-- Settles O42: reads by the map, and the three kinds of write. -/
theorem registerWindowMap : Obligations.RegisterWindowMap := by
  intro s v
  refine ⟨fun p hp => step_readReg_windowMap hp, step_writeReg s v (by decide) (by decide),
    step_writeReg s v (by decide) (by decide), fun off hoff => ?_⟩
  have hword : off < 0x40 ∧ off % 4 = 0 ∧ off ≠ 0 ∧ off ≠ 4 := by
    revert off
    decide
  obtain ⟨hlt, h4, hcmd, hlen⟩ := hword
  exact step_writeReg_ignored s v hlt h4 hcmd hlen

/-! ## No command writes IBUF -/

/-- No command writes IBUF or gives the host a value (R41). -/
theorem CommandEffect.ibuf_kept {s t : State} {i : Instr} (h : CommandEffect s i t) :
    t.ibuf = s.ibuf ∧ t.replies = s.replies := by
  cases h with
  | ignored | sequence | bounds | init | block | tail | final | run => exact ⟨rfl, rfl⟩

/-- No event but a host write to IBUF changes IBUF (R41). -/
theorem StepEffect.ibuf_kept {s t : State} {rest : List HostEvent} {e : HostEvent} (h : StepEffect s rest e t)
    (he : ∀ addr v, e ≠ .writeIbuf addr v) : t.ibuf = s.ibuf := by
  cases h with
  | command h => exact h.ibuf_kept.1
  | poke => exact absurd rfl (he _ _)
  | illegalIgnored | illegal | lenWrite | ignoredWrite | read | reset => rfl

theorem byteAt_eq_of_ibuf_eq {s t : State} (h : t.ibuf = s.ibuf) (x : Nat) : t.byteAt x = s.byteAt x := by
  rw [State.byteAt, h, State.byteAt]

/-- Settles O37: the commands' frame, and a step that is no host write to IBUF keeps IBUF. -/
theorem onlyTheHostWritesIbuf : Obligations.OnlyTheHostWritesIbuf := by
  constructor
  · intro i s t h
    have heff := commandEffect_of_exec h
    obtain ⟨hibuf, hreplies⟩ := heff.ibuf_kept
    obtain ⟨_, _, _, hlen, hcfg, hpending⟩ := heff.frame
    exact ⟨byteAt_eq_of_ibuf_eq hibuf, hibuf, hlen, hcfg, hpending, hreplies⟩
  · intro s t e rest hp h x hx
    by_contra he
    push Not at he
    exact hx (byteAt_eq_of_ibuf_eq ((stepEffect_of_step hp h).ibuf_kept he) x)

/-! ## Reads have no side effect -/

/-- What the host has read does not matter to a register read (log 3). -/
@[simp] theorem windowRead_reply (off : Nat) (r : Reply) (s : State) : windowRead off (reply r s) = windowRead off s := by
  rw [windowRead, windowRead]
  cases regAt off with
  | none => rfl
  | some reg => cases reg <;> rfl

/-- A host read that goes on adds one value to what the host has read, and adds it again when it is made again (R48). -/
theorem step_read_twice {s t : State} {e : HostEvent}
    (he : (∃ bits addr, e = .readReg bits addr) ∨ ∃ addr, e = .readIbuf addr)
    (h : step (s.push e) = .next t) : ∃ r, t = reply r s ∧ step (t.push e) = .next (reply r (reply r s)) := by
  rcases he with ⟨bits, addr, rfl⟩ | ⟨addr, rfl⟩
  · rw [step_push_readReg] at h
    obtain ⟨off, rfl, rfl, hoff, h4, hf⟩ := windowAccess_next h
    cases hf
    refine ⟨_, rfl, (step_readReg (reply _ s) hoff h4).trans ?_⟩
    rw [windowRead_reply]
  · rw [step_push_readIbuf] at h
    obtain ⟨i, rfl, hi, hf⟩ := ibufAccess_next h
    cases hf
    exact ⟨_, rfl, step_readIbuf (reply _ s) hi⟩

/-- A window write that changes more than LEN is a write to CMD (R48). -/
theorem addr_eq_of_step_writeReg {s t : State} {bits addr : Nat} {v : Word}
    (h : step (s.push (.writeReg bits addr v)) = .next t) (hne : { t with len := s.len } ≠ s) : addr = s.cfg.regBase := by
  rw [step_push_writeReg] at h
  obtain ⟨off, rfl, rfl, _, _, hf⟩ := windowAccess_next h
  rcases windowWrite_cases off v s with ⟨rfl, _⟩ | ⟨_, hw⟩ | ⟨_, _, hw⟩
  · rfl
  all_goals
    rw [hw] at hf
    cases hf
    exact absurd rfl hne

/-- Settles O45: the reads by `step_read_twice` and the map, IBUF's bytes by the step's effects. -/
theorem readsHaveNoSideEffects : Obligations.ReadsHaveNoSideEffects := by
  refine ⟨fun s t e he h => step_read_twice he h, fun s i hi => step_readIbuf s hi, fun s t e rest hp he h => ?_,
    fun s p hp => ?_, fun s t bits addr v h hne => addr_eq_of_step_writeReg h hne⟩
  · exact byteAt_eq_of_ibuf_eq ((stepEffect_of_step hp h).ibuf_kept he)
  · have hp' : p ∈ (windowMap s).take 10 := hp
    exact step_readReg_windowMap (List.mem_of_mem_take hp')

/-! ## Commands and the buffer's end -/

/-- INIT and RUN with a length that does not fit (R125). -/
theorem exec_exceeds {i : Instr} {s : State} (hi : i = .init ∨ i = .run) (hl : s.bufSize < s.len.toNat) :
    exec i s = .next (raiseFault .bounds (clearErr s)) := by
  rcases hi with rfl | rfl
  · rw [exec_init, performInit_exceeds hl]
  · rw [exec_run, performRun_exceeds hl]

/-- A legal BLOCK's twelve bytes lie below KLEN, and KLEN within IBUF (R52). -/
theorem Inv.block_inside {s : State} (h : Inv s) (hp : s.phase = .body) (hr : 12 ≤ s.rem.toNat) :
    s.cursor.toNat + 12 ≤ s.klen.toNat ∧ s.klen.toNat ≤ s.bufSize := by
  obtain ⟨hsum, _, hk⟩ := h.counters (.inl hp)
  exact ⟨by omega, hk⟩

/-- In BODY, the bytes from CURSOR on that remain end at KLEN, and KLEN lies within IBUF (R52). -/
theorem Inv.tail_inside {s : State} (h : Inv s) (hp : s.phase = .body) :
    s.cursor.toNat + s.rem.toNat = s.klen.toNat ∧ s.klen.toNat ≤ s.bufSize := by
  obtain ⟨hsum, _, hk⟩ := h.counters (.inl hp)
  exact ⟨hsum, hk⟩

/-- BLOCK and TAIL, when legal, read below KLEN (R52). -/
theorem Inv.reads_below_klen {s : State} {i : Instr} (h : Inv s) (hl : legal i s = true) (hi : i = .block ∨ i = .tail) :
    s.klen.toNat ≤ s.bufSize ∧ ∀ x ∈ ibufReads i s, x < s.klen.toNat := by
  rcases hi with rfl | rfl
  · obtain ⟨hp, hr⟩ := (blockLegal_iff s).1 hl
    obtain ⟨hend, hk⟩ := h.block_inside hp hr
    exact ⟨hk, fun x hx => by have := List.mem_range'_1.1 hx; omega⟩
  · obtain ⟨hp, _⟩ := (tailLegal_iff s).1 hl
    obtain ⟨hend, hk⟩ := h.tail_inside hp
    exact ⟨hk, fun x hx => by have := List.mem_range'_1.1 hx; omega⟩

/-- Every legal command reads inside IBUF, RUN when its length fits (R52). -/
theorem Inv.reads_below_bufSize {s : State} {i : Instr} (h : Inv s) (hl : legal i s = true)
    (hrun : i = .run → s.len.toNat ≤ s.bufSize) {x : Nat} (hx : x ∈ ibufReads i s) : x < s.bufSize := by
  cases i with
  | init | final => simp [ibufReads] at hx
  | block | tail =>
    obtain ⟨hk, hbelow⟩ := h.reads_below_klen hl (by simp)
    exact Nat.lt_of_lt_of_le (hbelow x hx) hk
  | run =>
    have hlen := hrun rfl
    have := List.mem_range'_1.1 hx
    omega

/-- Settles O39: the bounds of the reads by the invariant's counters, BOUNDS by `exec_exceeds`. -/
theorem readsStayInsideTheBuffer : Obligations.ReadsStayInsideTheBuffer := by
  intro i s h hl
  refine ⟨h.reads_below_klen hl, ?_, ?_, fun hi hlen => ?_, fun hrun x hx => h.reads_below_bufSize hl hrun hx⟩
  · rintro rfl
    obtain ⟨hp, hr⟩ := (blockLegal_iff s).1 hl
    exact (h.block_inside hp hr).1
  · rintro rfl
    obtain ⟨hp, _⟩ := (tailLegal_iff s).1 hl
    exact (h.tail_inside hp).1
  · exact ⟨_, exec_exceeds hi hlen, by simp⟩

/-- No command stops: only BLOCK and TAIL have a read that may pass the buffer's end, and the invariant bounds both (R52). -/
theorem Inv.exec_completes {s : State} (h : Inv s) (i : Instr) : Completes (exec i s) := by
  cases i with
  | init => exact ⟨_, rfl⟩
  | block =>
    rcases performBlock_cases s with ⟨_, he⟩ | ⟨_, _, he⟩ | ⟨_, _, _, he⟩ | ⟨hp, hr, hpast, _⟩
    · exact ⟨_, he⟩
    · exact ⟨_, he⟩
    · exact ⟨_, he⟩
    · obtain ⟨hend, hk⟩ := h.block_inside hp hr
      omega
  | tail =>
    rcases performTail_cases s with ⟨_, he⟩ | ⟨_, _, he⟩ | ⟨_, _, _, he⟩ | ⟨hp, _, _, hpast, _⟩
    · exact ⟨_, he⟩
    · exact ⟨_, he⟩
    · exact ⟨_, he⟩
    · obtain ⟨hend, hk⟩ := h.tail_inside hp
      omega
  | final => rcases performFinal_cases s with ⟨_, he⟩ | ⟨_, _, he⟩ | ⟨_, he⟩ <;> exact ⟨_, he⟩
  | run =>
    rcases Nat.lt_or_ge s.bufSize s.len.toNat with hl | hl
    · exact ⟨_, performRun_exceeds hl⟩
    · exact ⟨_, performRun_completes hl⟩

/-- Settles O50: a CMD write is a command or the fault action. -/
theorem noCommandStops : Obligations.NoCommandStops := by
  refine fun s h => ⟨h.exec_completes, fun w => ?_⟩
  rcases commandWrite_cases w s with ⟨i, _, he⟩ | ⟨_, _, he⟩ | ⟨_, _, he⟩
  · rw [he]
    exact h.exec_completes i
  · exact ⟨_, he⟩
  · exact ⟨_, he⟩

/-! ## A command depends on no byte but those it reads -/

/-- The state with another IBUF. -/
def State.withIbuf (s : State) (m : Memory) : State := { s with ibuf := m }

/-- BLOCK and TAIL where their bytes pass the buffer's end (R125; log 10). -/
theorem performBlock_pastEnd {s : State} (hp : s.phase = .body) (hr : 12 ≤ s.rem.toNat)
    (hb : s.bufSize < s.cursor.toNat + 12) : performBlock s = .fault .ibufReadPastEnd := by
  rw [performBlock, if_neg (by simp [hp]), if_pos ((blockLegal_iff s).2 ⟨hp, hr⟩),
    if_neg (by simpa [holdsRange_iff, blockBytes] using hb)]

theorem performTail_pastEnd {s : State} (hp : s.phase = .body) (h1 : 1 ≤ s.rem.toNat) (hr : s.rem.toNat ≤ 11)
    (hb : s.bufSize < s.cursor.toNat + s.rem.toNat) : performTail s = .fault .ibufReadPastEnd := by
  rw [performTail, if_neg (by simp [hp]), if_pos ((tailLegal_iff s).2 ⟨hp, hr⟩),
    if_neg (by rw [holdsRange_iff]; omega)]

/-- BLOCK's fold depends on the twelve bytes from CURSOR on (R92). -/
theorem foldBlock_withIbuf {s : State} {m : Memory}
    (h : ∀ x, s.cursor.toNat ≤ x → x < s.cursor.toNat + 12 → Memory.read m x = s.byteAt x) :
    foldBlock (s.withIbuf m) = (foldBlock s).withIbuf m := by
  have hadd : addBlock (s.withIbuf m).byteAt s.cursor.toNat s.acc = addBlock s.byteAt s.cursor.toNat s.acc :=
    addBlock_congr s.acc h
  exact congrArg (fun t => ((foldBlock s).setAcc t).withIbuf m) (congrArg mix hadd)

/-- A line of the cascade that acts adds a byte that remains (R101). -/
theorem tailLines_index_lt : ∀ l ∈ tailLines, l.index < l.threshold := by decide

theorem tailByte_withIbuf {s : State} {m : Memory} {j : Nat}
    (h : Memory.read m (s.cursor.toNat + j) = s.byteAt (s.cursor.toNat + j)) : (s.withIbuf m).tailByte j = s.tailByte j := h

/-- TAIL's fold depends on the REM bytes from CURSOR on (R100). -/
theorem foldTail_withIbuf {s : State} {m : Memory}
    (h : ∀ x, s.cursor.toNat ≤ x → x < s.cursor.toNat + s.rem.toNat → Memory.read m x = s.byteAt x) :
    foldTail (s.withIbuf m) = (foldTail s).withIbuf m := by
  have hcascade : cascade tailLines (s.withIbuf m).tailByte s.rem.toNat (s.acc.addTo .c s.klen) =
      cascade tailLines s.tailByte s.rem.toNat (s.acc.addTo .c s.klen) :=
    cascade_congr _ _ fun l hl hr =>
      have hindex := tailLines_index_lt l hl
      tailByte_withIbuf (h _ (by omega) (by omega))
  exact congrArg (fun t => ((foldTail s).setAcc t).withIbuf m) hcascade

/-- RUN's loop depends on the bytes below LEN (R112). -/
theorem loopEnd_withIbuf {s : State} {m : Memory} (h : ∀ x, x < s.len.toNat → Memory.read m x = s.byteAt x) :
    loopEnd (s.withIbuf m) = (loopEnd s).withIbuf m := by
  have hloop : hashLoop (s.withIbuf m).byteAt (s.len.toNat / 12) 0 seeds = hashLoop s.byteAt (s.len.toNat / 12) 0 seeds :=
    hashLoop_congr _ _ _ fun x _ hx => h x (by omega)
  exact congrArg (fun t => ((loopEnd s).setAcc t).withIbuf m) hloop

/-- BLOCK depends on the bytes R47 lists for it: what it reads decides neither whether it is accepted nor whether it stops. -/
theorem performBlock_withIbuf {s : State} {m : Memory} (h : ∀ x ∈ ibufReads .block s, Memory.read m x = s.byteAt x) :
    performBlock (s.withIbuf m) = mapNext (·.withIbuf m) (performBlock s) := by
  rcases performBlock_cases s with ⟨hp, he⟩ | ⟨hp, hl, he⟩ | ⟨hp, hr, hb, he⟩ | ⟨hp, hr, hb, he⟩ <;> rw [he]
  · exact performBlock_fault (s := s.withIbuf m) hp
  · exact performBlock_sequence (s := s.withIbuf m) hp hl
  · have hfold : foldBlock (s.withIbuf m) = (foldBlock s).withIbuf m :=
      foldBlock_withIbuf fun x hlo hhi => h x (List.mem_range'_1.2 ⟨hlo, hhi⟩)
    rw [performBlock_ok (s := s.withIbuf m) hp hr hb, hfold, mapNext_next]
  · exact performBlock_pastEnd (s := s.withIbuf m) hp hr hb

/-- TAIL depends on the bytes R47 lists for it, in the same way. -/
theorem performTail_withIbuf {s : State} {m : Memory} (h : ∀ x ∈ ibufReads .tail s, Memory.read m x = s.byteAt x) :
    performTail (s.withIbuf m) = mapNext (·.withIbuf m) (performTail s) := by
  rcases performTail_cases s with ⟨hp, he⟩ | ⟨hp, hl, he⟩ | ⟨hp, hr, hb, he⟩ | ⟨hp, h1, hr, hb, he⟩ <;> rw [he]
  · exact performTail_fault (s := s.withIbuf m) hp
  · exact performTail_sequence (s := s.withIbuf m) hp hl
  · have hfold : foldTail (s.withIbuf m) = (foldTail s).withIbuf m :=
      foldTail_withIbuf fun x hlo hhi => h x (List.mem_range'_1.2 ⟨hlo, hhi⟩)
    rw [performTail_ok (s := s.withIbuf m) hp hr hb, hfold, mapNext_next]
  · exact performTail_pastEnd (s := s.withIbuf m) hp h1 hr hb

/-- INIT reads no byte (R47). -/
theorem performInit_withIbuf (s : State) (m : Memory) : performInit (s.withIbuf m) = (performInit s).withIbuf m := by
  rcases performInit_cases s with ⟨hl, he⟩ | ⟨hl, he⟩ <;> rw [he]
  · exact performInit_fits (s := s.withIbuf m) hl
  · exact performInit_exceeds (s := s.withIbuf m) hl

/-- FINAL reads no byte (R47). -/
theorem performFinal_withIbuf (s : State) (m : Memory) :
    performFinal (s.withIbuf m) = mapNext (·.withIbuf m) (performFinal s) := by
  rcases performFinal_cases s with ⟨hp, he⟩ | ⟨hp, hl, he⟩ | ⟨hp, he⟩ <;> rw [he]
  · exact performFinal_fault (s := s.withIbuf m) hp
  · exact performFinal_sequence (s := s.withIbuf m) hp hl
  · exact performFinal_ok (s := s.withIbuf m) hp

/-- RUN depends on the bytes below LEN: its loop and its TAIL read no other (R47, R112). -/
theorem performRun_withIbuf {s : State} {m : Memory} (h : ∀ x ∈ ibufReads .run s, Memory.read m x = s.byteAt x) :
    performRun (s.withIbuf m) = mapNext (·.withIbuf m) (performRun s) := by
  rcases Nat.lt_or_ge s.bufSize s.len.toNat with hl | hl
  · rw [performRun_exceeds hl]
    exact performRun_exceeds (s := s.withIbuf m) hl
  · have hbelow (x : Nat) (hx : x < s.len.toNat) : Memory.read m x = s.byteAt x :=
      h x (List.mem_range'_1.2 ⟨Nat.zero_le x, by omega⟩)
    have htail : foldTail ((loopEnd s).withIbuf m) = (foldTail (loopEnd s)).withIbuf m :=
      foldTail_withIbuf fun x _ hx => hbelow x (by rw [loopEnd_cursor_toNat, loopEnd_rem_toNat] at hx; omega)
    rw [performRun_completes hl, performRun_completes (s := s.withIbuf m) hl, loopEnd_withIbuf hbelow, htail]
    rfl

/-- Settles O38: command by command, over the state with the other IBUF. -/
theorem commandsReadOnlyTheirBytes : Obligations.CommandsReadOnlyTheirBytes := by
  intro i s m h
  cases i with
  | init => exact congrArg Host.Outcome.next (performInit_withIbuf s m)
  | block => exact performBlock_withIbuf h
  | tail => exact performTail_withIbuf h
  | final => exact performFinal_withIbuf s m
  | run => exact performRun_withIbuf h

end Sys2Proof.Machine
end

section
/-! PROOF. The family of 30_encoding.md: which words and bytes are commands, and the two pseudo-instructions. -/

namespace Sys2Proof.Machine

/-! ## Words -/

/-- Decoding inverts encoding, on exactly the encodings (R63). -/
theorem decode_eq_ok_iff {w : Word} {i : Instr} : decode w = .ok i ↔ w = encode i :=
  ⟨eq_encode_of_decode, fun h => h ▸ decode_of_encode i⟩

/-- Settles O1: each hex word is the command's encoding, and an encoding decodes to its command. -/
theorem commandWordsInFull : Obligations.CommandWordsInFull :=
  ⟨⟨rfl, decode_of_encode .init⟩, ⟨rfl, decode_of_encode .block⟩, ⟨rfl, decode_of_encode .tail⟩,
    ⟨rfl, decode_of_encode .final⟩, ⟨rfl, decode_of_encode .run⟩⟩

/-- The fields of a command's word (R60, R62). -/
theorem ofWord_encode (i : Instr) : Cmd32.ofWord (encode i) = { op := opOf i, rsv := 0#28 } := Cmd32.ofWord_toWord _

/-- The encodings are the words 1 to 5 (R62, R68). -/
theorem exists_eq_encode_iff {w : Word} : (∃ i, w = encode i) ↔ 1 ≤ w.toNat ∧ w.toNat ≤ 5 := by
  constructor
  · rintro ⟨i, rfl⟩
    cases i <;> decide
  · rintro ⟨hlo, hhi⟩
    have hcases : w.toNat = 1 ∨ w.toNat = 2 ∨ w.toNat = 3 ∨ w.toNat = 4 ∨ w.toNat = 5 := by omega
    rcases hcases with h | h | h | h | h
    · exact ⟨.init, BitVec.eq_of_toNat_eq h⟩
    · exact ⟨.block, BitVec.eq_of_toNat_eq h⟩
    · exact ⟨.tail, BitVec.eq_of_toNat_eq h⟩
    · exact ⟨.final, BitVec.eq_of_toNat_eq h⟩
    · exact ⟨.run, BitVec.eq_of_toNat_eq h⟩

/-- No command's word has a bit above OP (R63). -/
theorem encode_and_mask (i : Instr) : encode i &&& 0xFFFFFFF0#32 = 0#32 := by cases i <;> rfl

/-- A word with a reserved bit set is rejected as such (R64). -/
theorem decode_reservedBits {w : Word} (h : BitVec.extractLsb' 4 28 w ≠ 0#28) : decode w = .error .reservedBits := by
  have hrsv : ¬ (Cmd32.ofWord w).rsvOk = true := by simpa [Cmd32.rsvOk, Cmd32.ofWord] using h
  rw [decode, if_neg hrsv]

/-- A word below 16 is all OP (R60). -/
theorem ofWord_of_lt {w : Word} (h : w.toNat < 16) : Cmd32.ofWord w = { op := BitVec.ofNat 4 w.toNat, rsv := 0#28 } := by
  have hop : BitVec.extractLsb' 0 4 w = BitVec.ofNat 4 w.toNat := by rw [BitVec.extractLsb', Nat.shiftRight_zero]
  have hrsv : BitVec.extractLsb' 4 28 w = 0#28 := by
    rw [BitVec.extractLsb', Nat.shiftRight_eq_div_pow, Nat.div_eq_of_lt h]
  rw [Cmd32.ofWord, hop, hrsv]

/-- R62's reserved OP values. -/
theorem opcodeOf_reserved : ∀ {op : BitVec 4}, op = 0#4 ∨ 6 ≤ op.toNat → opcodeOf op = .error .reservedOp := by decide

/-- The words 0 and 6 to 15 are rejected for their OP (R64). -/
theorem decode_reservedOp {w : Word} (h : w = 0x00000000#32 ∨ 0x00000006 ≤ w.toNat ∧ w.toNat ≤ 0x0000000F) :
    decode w = .error .reservedOp := by
  rcases h with rfl | ⟨hlo, hhi⟩
  · rfl
  · have hlt : w.toNat < 16 := by omega
    have hop : 6 ≤ (BitVec.ofNat 4 w.toNat).toNat := by rwa [BitVec.toNat_ofNat, Nat.mod_eq_of_lt hlt]
    rw [decode, ofWord_of_lt hlt]
    exact opcodeOf_reserved (.inr hop)

/-- A CMD write of no command outside FAULT raises ILLEGAL_CMD (R123). -/
theorem commandWrite_illegal {w : Word} {s : State} {e : DecodeReject} (hd : decode w = .error e) (hp : s.phase ≠ .fault) :
    commandWrite w s = .next (raiseFault .illegalCmd s) := by
  rw [commandWrite, hd]
  exact congrArg Host.Outcome.next (if_neg hp)

/-- Settles O2: the words that decode are the five encodings, and each other word has its rejection. -/
theorem decodeAcceptsExactlyTheFiveWords : Obligations.DecodeAcceptsExactlyTheFiveWords := by
  intro w
  simp only [decode_eq_ok_iff]
  refine ⟨⟨?_, fun ⟨_, hrange⟩ => exists_eq_encode_iff.2 hrange⟩, ?_, decode_reservedBits, decode_reservedOp,
    fun _ _ => commandWrite_illegal⟩
  · rintro ⟨i, rfl⟩
    exact ⟨encode_and_mask i, exists_eq_encode_iff.1 ⟨i, rfl⟩⟩
  · rintro i rfl
    obtain ⟨hop, hrsv⟩ := (Cmd32.mk.injEq ..).mp (ofWord_encode i)
    exact ⟨hop.symm, hrsv⟩

/-! ## Bytes -/

/-- Four bytes decode as the word they make, and the rest is left (R44, R65). -/
theorem decodeBytes_four (b0 b1 b2 b3 : Byte) (rest : List Byte) :
    decodeBytes (b0 :: b1 :: b2 :: b3 :: rest) = (decode (wordOfBytes b0 b1 b2 b3)).map (·, rest) := by
  rw [decodeBytes]
  cases decode (wordOfBytes b0 b1 b2 b3) <;> rfl

/-- The lanes of a command's word decode to the command (R44). -/
theorem decodeBytes_encode (i : Instr) (rest : List Byte) :
    decodeBytes (bytesOfWord (encode i) ++ rest) = .ok (i, rest) := by
  rw [bytesOfWord]
  refine (decodeBytes_four ..).trans ?_
  rw [wordOfBytes_lanes, decode_of_encode]
  rfl

/-- Bytes that decode are the lanes of the command's word, then the rest; fewer than four never do (R60, R65). -/
theorem eq_bytes_of_decodeBytes {bs : List Byte} {i : Instr} {rest : List Byte} (h : decodeBytes bs = .ok (i, rest)) :
    bs = bytesOfWord (encode i) ++ rest := by
  match bs with
  | [] | [_] | [_, _] | [_, _, _] => cases h
  | b0 :: b1 :: b2 :: b3 :: tl =>
    rw [decodeBytes_four] at h
    cases hd : decode (wordOfBytes b0 b1 b2 b3) with
    | error e => rw [hd] at h; cases h
    | ok j =>
      rw [hd] at h
      cases h
      rw [← eq_encode_of_decode hd, bytesOfWord_wordOfBytes]
      rfl

/-- The opcode table's word of a command decodes to it. -/
theorem decodeTableWord_encode (i : Instr) : decodeTableWord 32 (encode i).toNat = some i := by
  have h := decodeBytes_encode i []
  rw [List.append_nil] at h
  rw [decodeTableWord, if_pos (Nat.le_refl 32), tableWord_toNat, h]

/-- Settles O3: on words by `decode_eq_ok_iff`, on bytes and on the table's words through the four lanes. -/
theorem decodeAndEncodeAgree : Obligations.DecodeAndEncodeAgree :=
  ⟨fun _ _ => decode_eq_ok_iff, fun _ i rest => ⟨eq_bytes_of_decodeBytes, fun h => h ▸ decodeBytes_encode i rest⟩,
    decodeTableWord_encode⟩

/-! ## RUN and its commands one by one -/

/-- The commands of a hash of `n` bytes, one by one (R67, R114). -/
def hashCommands (n : Nat) : List Instr := .init :: List.replicate (n / 12) .block ++ [.tail, .final]

theorem hashCommands_length (n : Nat) : (hashCommands n).length = n / 12 + 3 := by simp [hashCommands]

/-- A single command in a row. -/
theorem execAll_singleton (i : Instr) : execAll [i] = exec i := by
  funext s
  rw [execAll_cons]
  cases exec i s <;> rfl

/-- In FAULT every command but INIT and RUN is ignored (R126). -/
theorem exec_fault {i : Instr} {s : State} (hinit : i ≠ .init) (hrun : i ≠ .run) (hp : s.phase = .fault) :
    exec i s = .next s := by
  cases i with
  | init => exact absurd rfl hinit
  | block => exact performBlock_fault hp
  | tail => exact performTail_fault hp
  | final => exact performFinal_fault hp
  | run => exact absurd rfl hrun

/-- In FAULT commands in a row are ignored, if INIT and RUN are not among them (R126). -/
theorem execAll_fault {is : List Instr} {s : State} (his : ∀ i ∈ is, i ≠ .init ∧ i ≠ .run) (hp : s.phase = .fault) :
    execAll is s = .next s := by
  induction is with
  | nil => rfl
  | cons i is ih =>
    obtain ⟨⟨hinit, hrun⟩, htail⟩ := List.forall_mem_cons.1 his
    rw [execAll_cons, exec_fault hinit hrun hp, andThen_next, ih htail]

/-- The commands of a hash one by one do what RUN does, from every state (R112, R114): a LEN that fits takes both through the
loop, TAIL and FINAL, and one that does not leaves both in the FAULT that INIT raises. -/
theorem execAll_hashCommands (s : State) : execAll (hashCommands s.len.toNat) s = exec .run s := by
  rw [hashCommands, List.cons_append, execAll_cons, exec_init, andThen_next, exec_run]
  rcases Nat.lt_or_ge s.bufSize s.len.toNat with hl | hl
  · rw [performInit_exceeds hl, performRun_exceeds hl]
    refine execAll_fault (fun i hi => ?_) rfl
    have hcases : (s.len.toNat / 12 ≠ 0 ∧ i = .block) ∨ i = .tail ∨ i = .final := by
      simpa [List.mem_replicate] using hi
    rcases hcases with ⟨_, rfl⟩ | rfl | rfl <;> decide
  · have hblocks : execAll (List.replicate (s.len.toNat / 12) .block) (startHash (clearErr s)) = .next (loopEnd s) := by
      rw [execAll_blocks _ _ rfl ⟨by simp, by simp, hl⟩ (by simpa using Nat.mul_div_le s.len.toNat 12),
        blockLoop_startHash hl]
    rw [performInit_fits hl, execAll_append, hblocks, performRun_fits hl, blockLoop_startHash hl, andThen_next, andThen_next,
      execAll_cons, execAll_singleton]
    rfl

/-- RUN answers a next state from every state. -/
theorem exec_run_completes (s : State) : Completes (exec .run s) := by
  rcases Nat.lt_or_ge s.bufSize s.len.toNat with hl | hl
  · exact ⟨_, performRun_exceeds hl⟩
  · exact ⟨_, performRun_completes hl⟩

/-! ## The pseudo-instructions -/

/-- A host program that writes LEN, performs commands and reads DIGEST: the shape both pseudo-instructions have (R67). -/
def digestProgram (v : Word) (is : List Instr) : List HostLine := .wr .len v :: is.map .cmd ++ [.rd .digest]

theorem pseudoHash_eq (n : Nat) : pseudoHash n = digestProgram (BitVec.ofNat 32 n) [.run] := rfl

theorem pseudoHashStep_eq (n : Nat) : pseudoHashStep n = digestProgram (BitVec.ofNat 32 n) (hashCommands n) := by
  simp [pseudoHashStep, digestProgram, hashCommands]

/-- The accesses of such a program: the LEN write, the CMD writes, the read of DIGEST. -/
theorem programEvents_digestProgram (cfg : Config) (v : Word) (is : List Instr) :
    programEvents cfg (digestProgram v is) =
      .writeReg 32 (cfg.regBase + 4) v :: (is.map (fun i => cmdWrite cfg (encode i)) ++ [.readReg 32 (cfg.regBase + 0xC)]) := by
  simp [programEvents, digestProgram, List.flatMap_map, HostLine.events, Reg.offset, cmdWrite, ← List.map_eq_flatMap]

/-- Commands in a row leave the parameters. -/
theorem execAll_cfg {is : List Instr} : ∀ {s t : State}, execAll is s = .next t → t.cfg = s.cfg := by
  induction is with
  | nil => intro s t h; cases h; rfl
  | cons i is ih =>
    intro s t h
    rw [execAll_cons] at h
    cases hi : exec i s with
    | next u => rw [hi, andThen_next] at h; exact (ih h).trans (exec_cfg hi)
    | fault x => rw [hi] at h; cases h
    | refused x => rw [hi] at h; cases h

/-- What such a program's accesses leave: the state its commands leave from the new LEN, and DIGEST as the last reply. -/
theorem run_digestProgram {s t : State} {v : Word} {is : List Instr} (h : execAll is { s with len := v } = .next t) :
    Host.Core.run Sys2Proof.core (is.length + 2)
      (s.withPending (programEvents s.cfg (digestProgram v is) ++ s.pending)) =
      .next (reply (.word t.digest) (t.withPending s.pending)) := by
  have hlen (p : List HostEvent) :
      step (s.withPending (.writeReg 32 (s.cfg.regBase + 4) v :: p)) = .next ({ s with len := v }.withPending p) :=
    step_writeReg (s.withPending p) v (by decide) (by decide)
  have hcfg : t.cfg = s.cfg := (execAll_cfg h).trans rfl
  have hread : step (t.withPending (.readReg 32 (s.cfg.regBase + 0xC) :: s.pending)) =
      .next (reply (.word t.digest) (t.withPending s.pending)) := by
    rw [← hcfg]
    exact step_readReg (t.withPending s.pending) (by decide) (by decide)
  rw [programEvents_digestProgram, List.cons_append, List.append_assoc]
  exact (run_succ _ (hlen _)).trans ((run_add 1 (run_commands is _ h)).trans (run_succ 0 hread))

/-- Settles O30: both pseudo-instructions are `digestProgram`s, whose commands do the same. -/
theorem hashEqualsHashStep : Obligations.HashEqualsHashStep := by
  intro s n hn
  refine ⟨rfl, rfl, ?_⟩
  have hlen : (BitVec.ofNat 32 n).toNat = n := Nat.mod_eq_of_lt hn
  obtain ⟨t, ht⟩ := exec_run_completes { s with len := BitVec.ofNat 32 n }
  have hstep : execAll (hashCommands n) { s with len := BitVec.ofNat 32 n } = .next t := by
    rw [← ht, ← execAll_hashCommands, hlen]
  have hrun : execAll [.run] { s with len := BitVec.ofNat 32 n } = .next t := by
    rw [execAll_singleton, ht]
  have hhash := run_digestProgram hrun
  have hhashStep := run_digestProgram hstep
  rw [← pseudoHash_eq] at hhash
  rw [← pseudoHashStep_eq, hashCommands_length] at hhashStep
  exact ⟨reply (.word t.digest) (t.withPending s.pending), hhash, hhashStep⟩

end Sys2Proof.Machine
end

section
/-! PROOF. The family of 40_mixing.md: MIX and UNMIX as listings, that each undoes the other, the rows' shape, and the zero
triple. -/

namespace Sys2Proof.Machine

/-! ## Rows done and undone -/

/-- Two row actions of which `undo` undoes `act`: the rows undone backwards give the triple back. -/
theorem foldl_reverse_foldl_cancel {act undo : Triple → MixRow → Triple} (h : ∀ t r, undo (act t r) r = t)
    (rows : List MixRow) (t : Triple) : rows.reverse.foldl undo (rows.foldl act t) = t := by
  induction rows generalizing t with
  | nil => rfl
  | cons r rows ih => simp only [List.reverse_cons, List.foldl_append, List.foldl_cons, List.foldl_nil, ih, h]

@[simp] theorem unmix_mix (t : Triple) : unmix (mix t) = t :=
  foldl_reverse_foldl_cancel undoRow_applyRow schedule t

@[simp] theorem mix_unmix (t : Triple) : mix (unmix t) = t := by
  have h := foldl_reverse_foldl_cancel applyRow_undoRow schedule.reverse t
  rwa [List.reverse_reverse] at h

theorem mix_bijective : Function.Bijective mix :=
  Function.bijective_iff_has_inverse.mpr ⟨unmix, unmix_mix, mix_unmix⟩

/-- For fixed other words a row is a bijection on its target (R83). -/
theorem rowValue_bijective (sh : Shift) (y z : Word) : Function.Bijective fun x => rowValue sh x y z :=
  Function.bijective_iff_has_inverse.mpr
    ⟨fun x => unrowValue sh x y z, fun x => unrowValue_rowValue sh x y z, fun x => rowValue_unrowValue sh x y z⟩

/-- Settles O7: the rows are undone backwards, one by one; the listing is `unmix` run over the schedule. -/
theorem unmixInvertsMix : Obligations.UnmixInvertsMix :=
  ⟨mix_bijective, rowValue_bijective, unmix_mix, mix_unmix, fun _ _ _ => rfl⟩

/-! ## The rows of the schedule -/

@[simp] theorem applyRow_target_a (sh : Shift) (a b c : Word) :
    applyRow ⟨a, b, c⟩ ⟨.a, sh⟩ = ⟨(a - b - c) ^^^ sh.apply c, b, c⟩ := rfl
@[simp] theorem applyRow_target_b (sh : Shift) (a b c : Word) :
    applyRow ⟨a, b, c⟩ ⟨.b, sh⟩ = ⟨a, (b - c - a) ^^^ sh.apply a, c⟩ := rfl
@[simp] theorem applyRow_target_c (sh : Shift) (a b c : Word) :
    applyRow ⟨a, b, c⟩ ⟨.c, sh⟩ = ⟨a, b, (c - a - b) ^^^ sh.apply b⟩ := rfl

/-- Settles O5: the rows' equations, applied along the schedule. -/
theorem mixIsTheNineRowListing : Obligations.MixIsTheNineRowListing := by
  intro a b c
  simp only [mix, schedule, List.foldl_cons, List.foldl_nil, applyRow_target_a, applyRow_target_b, applyRow_target_c,
    Shift.apply]

/-- R81: every left shift goes into b. -/
theorem target_of_left_mem_schedule {x : Acc} {n : Nat} (h : ⟨x, .left n⟩ ∈ schedule) : x = .b := by
  simp only [schedule, List.mem_cons, MixRow.mk.injEq, Shift.left.injEq, reduceCtorEq, and_false, false_or, List.not_mem_nil,
    or_false] at h
  tauto

/-- R81: every right shift goes into a or c. -/
theorem target_of_right_mem_schedule {x : Acc} {n : Nat} (h : ⟨x, .right n⟩ ∈ schedule) : x = .a ∨ x = .c := by
  simp only [schedule, List.mem_cons, MixRow.mk.injEq, Shift.right.injEq, reduceCtorEq, and_false, false_or, List.not_mem_nil,
    or_false] at h
  tauto

/-- Settles O6: the table is the schedule, a row's shape its equation for each target, and the shifts' directions are read
off the schedule. -/
theorem mixRowsFollowTheTable : Obligations.MixRowsFollowTheTable := by
  refine ⟨rfl, applyRow_target_a, applyRow_target_b, applyRow_target_c, ?_⟩
  rintro ⟨x, sh⟩ hr n
  constructor
  · rintro rfl
    exact target_of_left_mem_schedule hr
  · rintro rfl
    exact target_of_right_mem_schedule hr

/-! ## The zero triple -/

@[simp] theorem Shift.apply_zero (sh : Shift) : sh.apply 0#32 = 0#32 := by
  cases sh with
  | right n => exact BitVec.zero_ushiftRight
  | left n => exact BitVec.zero_shiftLeft n

/-- Every subtraction and every shift of zero is zero (R84), so each row leaves the zero triple as it is. -/
theorem applyRow_zero (r : MixRow) : applyRow ⟨0#32, 0#32, 0#32⟩ r = ⟨0#32, 0#32, 0#32⟩ := by
  obtain ⟨target, sh⟩ := r
  cases target <;> simp

/-- Settles O8: a fixed point of every row is one of the whole schedule. -/
theorem mixOfZeroIsZero : Obligations.MixOfZeroIsZero :=
  ⟨List.foldl_fixed' applyRow_zero schedule, Shift.apply_zero⟩

end Sys2Proof.Machine
end

section
/-! PROOF. The family of 41_body.md: INIT and BLOCK with everything they leave alone, and how many BLOCKs in a row are legal
after INIT. -/

namespace Sys2Proof.Machine

/-! ## INIT -/

/-- Settles O21: the accepted and the refused case of `performInit`. -/
theorem initStartsTheHash : Obligations.InitStartsTheHash := by
  refine ⟨rfl, fun s => ⟨fun hl => ?_, fun hl => ?_⟩⟩
  · rw [exec_init, performInit_fits hl]
    rfl
  · exact exec_exceeds (.inl rfl) hl

/-! ## BLOCK -/

/-- BLOCK out of order: outside FAULT, in another phase than BODY or with fewer than 12 bytes left (R92, R93). -/
theorem performBlock_outOfOrder {s : State} (hp : s.phase ≠ .fault) (h : s.phase ≠ .body ∨ s.rem.toNat < 12) :
    performBlock s = .next (raiseFault .sequence s) := by
  refine performBlock_sequence hp (Bool.eq_false_iff.2 fun hl => ?_)
  obtain ⟨hbody, hr⟩ := (blockLegal_iff s).1 hl
  rcases h with hne | hlt
  · exact hne hbody
  · omega

/-- Settles O22: the accepted, the refused and the ignored case of `performBlock`; KLEN bounds the bytes and the counters. -/
theorem blockFoldsTwelveBytes : Obligations.BlockFoldsTwelveBytes := by
  refine ⟨rfl, fun s hp hr hb => performBlock_ok hp hr hb, fun s hp h => performBlock_outOfOrder hp h,
    fun s hp => performBlock_fault hp, fun s h hp hr => ?_⟩
  obtain ⟨hend, hk⟩ := h.block_inside hp hr
  obtain ⟨hsum, _⟩ := h.tail_inside hp
  exact ⟨hend.trans hk, foldBlock_counters hr hsum⟩

/-! ## BLOCKs in a row -/

/-- BLOCK keeps R25's counters. -/
theorem foldBlock_countersOk {s : State} (hr : 12 ≤ s.rem.toNat) (h : s.countersOk) : (foldBlock s).countersOk := by
  obtain ⟨hsum, h12, hk⟩ := h
  obtain ⟨hcur, hrem⟩ := foldBlock_counters hr hsum
  exact ⟨by rw [foldBlock_klen]; omega, by omega, hk⟩

/-- As many BLOCKs as REM has twelves are legal in a row, and each moves 12 from REM to CURSOR (R94). -/
theorem execAll_blocks_counters (j : Nat) : ∀ s : State, s.phase = .body → s.countersOk → 12 * j ≤ s.rem.toNat →
    ∃ t, execAll (List.replicate j .block) s = .next t ∧ t.phase = .body ∧ t.err = s.err ∧
      t.cursor.toNat = s.cursor.toNat + 12 * j ∧ t.rem.toNat = s.rem.toNat - 12 * j := by
  induction j with
  | zero => exact fun s hp _ _ => ⟨s, rfl, hp, rfl, rfl, rfl⟩
  | succ j ih =>
    intro s hp hc hj
    have hr : 12 ≤ s.rem.toNat := by omega
    have ⟨hsum, _, hk⟩ := hc
    obtain ⟨hcur, hrem⟩ := foldBlock_counters hr hsum
    obtain ⟨t, hrun, hphase, herr, htcur, htrem⟩ := ih (foldBlock s) hp (foldBlock_countersOk hr hc) (by omega)
    refine ⟨t, ?_, hphase, herr, by omega, by omega⟩
    rw [List.replicate_succ, execAll_cons, exec_block, performBlock_ok hp hr (by omega), andThen_next, hrun]

/-- INIT with a LEN that fits, then no more BLOCKs than LEN has twelves (R94). -/
theorem execAll_init_blocks {s : State} {j : Nat} (hl : s.len.toNat ≤ s.bufSize) (hj : j ≤ s.len.toNat / 12) :
    ∃ t, execAll (.init :: List.replicate j .block) s = .next t ∧ t.phase = .body ∧ t.err = .none ∧
      t.cursor.toNat = 12 * j ∧ t.rem.toNat = s.len.toNat - 12 * j := by
  obtain ⟨t, hrun, hphase, herr, hcur, hrem⟩ := execAll_blocks_counters j (startHash (clearErr s)) rfl
    ⟨by simp, by simp, hl⟩ (by rw [startHash_rem, clearErr_len]; omega)
  refine ⟨t, ?_, hphase, herr, by simpa using hcur, hrem⟩
  rw [execAll_cons, exec_init, performInit_fits hl, andThen_next, hrun]

/-- Settles O34: the run over the CMD writes is the commands in a row; with `floor(n / 12)` BLOCKs done, fewer than 12 bytes are
left and a further BLOCK is out of order. -/
theorem exactlyFloorBlocksAreLegal : Obligations.ExactlyFloorBlocksAreLegal := by
  intro s j hl hj
  obtain ⟨t, hexec, hphase, herr, hcur, hrem⟩ := execAll_init_blocks hl hj
  have hrun := run_commands _ s.pending hexec
  rw [List.length_cons, List.length_replicate, List.map_cons, List.map_replicate] at hrun
  refine ⟨t.withPending s.pending, hrun, hphase, herr, hcur, hrem, fun hfloor => ?_⟩
  have hmod : t.rem.toNat = s.len.toNat % 12 := by omega
  have hlt : t.rem.toNat < 12 := by omega
  exact ⟨hmod, performBlock_outOfOrder (by simp [hphase]) (.inr hlt)⟩

end Sys2Proof.Machine
end

section
/-! PROOF. The family of 42_tail.md: TAIL line by line with everything it leaves alone, the packed form of its additions, their
order, and the inclusive rule. -/

namespace Sys2Proof.Machine

/-! ## TAIL -/

/-- TAIL out of order: outside FAULT, in another phase than BODY or with more than 11 bytes left (R100). -/
theorem performTail_outOfOrder {s : State} (hp : s.phase ≠ .fault) (h : s.phase ≠ .body ∨ 11 < s.rem.toNat) :
    performTail s = .next (raiseFault .sequence s) := by
  refine performTail_sequence hp (Bool.eq_false_iff.2 fun hl => ?_)
  obtain ⟨hbody, hr⟩ := (tailLegal_iff s).1 hl
  rcases h with hne | hlt
  · exact hne hbody
  · omega

/-- A line of the cascade changes its own register, and that only at or above its threshold (R101). -/
theorem applyTailLine_target_a (k : Nat → Byte) (r threshold index shift : Nat) (a b c : Word) :
    applyTailLine k r ⟨a, b, c⟩ ⟨threshold, index, shift, .a⟩ =
      ⟨if r ≥ threshold then a + zext32 (k index) <<< shift else a, b, c⟩ := by
  unfold applyTailLine
  split <;> rfl
theorem applyTailLine_target_b (k : Nat → Byte) (r threshold index shift : Nat) (a b c : Word) :
    applyTailLine k r ⟨a, b, c⟩ ⟨threshold, index, shift, .b⟩ =
      ⟨a, if r ≥ threshold then b + zext32 (k index) <<< shift else b, c⟩ := by
  unfold applyTailLine
  split <;> rfl
theorem applyTailLine_target_c (k : Nat → Byte) (r threshold index shift : Nat) (a b c : Word) :
    applyTailLine k r ⟨a, b, c⟩ ⟨threshold, index, shift, .c⟩ =
      ⟨a, b, if r ≥ threshold then c + zext32 (k index) <<< shift else c⟩ := by
  unfold applyTailLine
  split <;> rfl

/-- Settles O23: the accepted, the refused and the ignored case of `performTail`; the cascade is taken line by line. -/
theorem tailFoldsLengthAndRemainingBytes : Obligations.TailFoldsLengthAndRemainingBytes := by
  refine ⟨rfl, fun s hp hr hb => ?_, fun s hp h => performTail_outOfOrder hp h, fun s hp => performTail_fault hp⟩
  rw [exec_tail, performTail_ok hp hr hb]
  simp only [foldTail, State.setAcc, State.acc, addTo_c, cascade, tailLines, List.foldl_cons, List.foldl_nil,
    applyTailLine_target_a, applyTailLine_target_b, applyTailLine_target_c, BitVec.shiftLeft_zero]
  rfl

/-! ## The packed form -/

/-- The tail byte `p[i]` of R104: `k[i]` while it remains, and 0 above. -/
def paddedByte (k : Nat → Byte) (r i : Nat) : Byte := if i < r then k i else 0#8

theorem zext32_zero : zext32 0#8 = 0#32 := BitVec.setWidth_zero ..

theorem zext32_paddedByte (k : Nat → Byte) (r i : Nat) :
    zext32 (paddedByte k r i) = if i < r then zext32 (k i) else 0#32 := by
  unfold paddedByte
  split <;> rfl

@[simp] theorem addTo_zero (t : Triple) (q : Acc) : t.addTo q 0#32 = t := by
  cases q <;> simp

/-- The table of R101 puts byte `i` under the threshold `i + 1`. -/
theorem tailLines_threshold : ∀ l ∈ tailLines, l.threshold = l.index + 1 := by decide

/-- Below its threshold a line adds the padded byte 0, so it may be taken to act always. -/
theorem applyTailLine_eq_addTo (k : Nat → Byte) (r : Nat) (t : Triple) {l : TailLine} (hl : l ∈ tailLines) :
    applyTailLine k r t l = t.addTo l.target (zext32 (paddedByte k r l.index) <<< l.shift) := by
  have hthreshold := tailLines_threshold l hl
  unfold applyTailLine paddedByte
  by_cases hr : l.index < r
  · rw [if_pos (by omega), if_pos hr]
  · rw [if_neg (by omega), if_neg hr, zext32_zero, BitVec.zero_shiftLeft, addTo_zero]

/-- The bytes added to one register do not overlap, so they are one packed word; C's lowest byte gets none (R104). -/
theorem cascade_eq_packed (k : Nat → Byte) (r : Nat) (t : Triple) :
    let p := paddedByte k r
    cascade tailLines k r t =
      { a := t.a + wordOfBytes (p 0) (p 1) (p 2) (p 3)
        b := t.b + wordOfBytes (p 4) (p 5) (p 6) (p 7)
        c := t.c + wordOfBytes 0#8 (p 8) (p 9) (p 10) } := by
  intro p
  have hpadded : cascade tailLines k r t =
      tailLines.reverse.foldl (fun t l => t.addTo l.target (zext32 (p l.index) <<< l.shift)) t :=
    (cascade_reverse k r t).trans <|
      List.foldl_ext _ _ _ fun u l hl => applyTailLine_eq_addTo k r u (List.mem_reverse.1 hl)
  rw [hpadded, wordOfBytes_eq_sum, wordOfBytes_eq_sum, wordOfBytes_eq_sum]
  simp only [List.foldl_reverse, tailLines, List.foldr_cons, List.foldr_nil, addTo_a, addTo_b, addTo_c,
    BitVec.shiftLeft_zero, zext32_zero, BitVec.zero_add, BitVec.add_assoc]

/-- Settles O24: the packed words written out. -/
theorem tailEqualsItsPackedForm : Obligations.TailEqualsItsPackedForm := by
  intro k r klen t _
  rw [cascade_eq_packed]
  simp only [wordOfBytes, zext32_paddedByte, addTo_c, zext32_zero, BitVec.zero_or]

/-! ## The order of the additions -/

theorem cascade_append (before after : List TailLine) (k : Nat → Byte) (r : Nat) (t : Triple) :
    cascade (before ++ after) k r t = cascade after k r (cascade before k r t) := List.foldl_append

/-- Lines in another order give the same result (R103). -/
theorem cascade_perm {lines lines' : List TailLine} (h : lines.Perm lines') (k : Nat → Byte) (r : Nat) (t : Triple) :
    cascade lines k r t = cascade lines' k r t :=
  h.foldl_eq' (fun l _ m _ u => applyTailLine_comm k r u l m) t

theorem applyTailLine_addTo (k : Nat → Byte) (r : Nat) (t : Triple) (q : Acc) (x : Word) (l : TailLine) :
    applyTailLine k r (t.addTo q x) l = (applyTailLine k r t l).addTo q x := by
  unfold applyTailLine
  split
  · exact addTo_comm ..
  · rfl

/-- An addition before the lines may as well come after them (R103). -/
theorem cascade_addTo (lines : List TailLine) (k : Nat → Byte) (r : Nat) (t : Triple) (q : Acc) (x : Word) :
    cascade lines k r (t.addTo q x) = (cascade lines k r t).addTo q x :=
  List.foldl_hom (f := fun u : Triple => u.addTo q x) fun u l => applyTailLine_addTo k r u q x l

/-- Settles O25: KLEN moves in front of the lines before it, and the lines then stand in a permutation of the table's order. -/
theorem tailOrderIsImmaterial : Obligations.TailOrderIsImmaterial := by
  intro before after k r klen t hperm
  calc cascade after k r ((cascade before k r t).addTo .c klen)
    _ = cascade after k r (cascade before k r (t.addTo .c klen)) := by rw [cascade_addTo before]
    _ = cascade (before ++ after) k r (t.addTo .c klen) := (cascade_append ..).symm
    _ = cascade tailLines k r (t.addTo .c klen) := cascade_perm hperm ..

/-! ## The inclusive rule -/

/-- No two lines of the table share a threshold. -/
theorem tailLines_erase_threshold_ne : ∀ l ∈ tailLines, ∀ m ∈ tailLines.erase l, m.threshold ≠ l.threshold := by decide

/-- Lines none of which acts add nothing. -/
theorem cascade_eq_self {lines : List TailLine} {r : Nat} (h : ∀ l ∈ lines, r < l.threshold) (k : Nat → Byte) (t : Triple) :
    cascade lines k r t = t := by
  have hskip : cascade lines k r t = lines.foldl (fun u _ => u) t :=
    List.foldl_ext _ _ _ fun u l hl => if_neg (Nat.not_le.2 (h l hl))
  rw [hskip, List.foldl_fixed]

/-- One more remaining byte changes nothing for lines with another threshold. -/
theorem cascade_succ_of_ne {lines : List TailLine} {r : Nat} (h : ∀ l ∈ lines, l.threshold ≠ r + 1) (k : Nat → Byte)
    (t : Triple) : cascade lines k (r + 1) t = cascade lines k r t := by
  refine List.foldl_ext _ _ _ fun u l hl => ?_
  have hne := h l hl
  have hiff : l.threshold ≤ r + 1 ↔ l.threshold ≤ r := by omega
  simp only [applyTailLine, hiff]

/-- Any line of the table may be taken last (R103). -/
theorem cascade_last {l : TailLine} (hl : l ∈ tailLines) (k : Nat → Byte) (r : Nat) (t : Triple) :
    cascade tailLines k r t = applyTailLine k r (cascade (tailLines.erase l) k r t) l := by
  have hperm : tailLines.Perm (tailLines.erase l ++ [l]) :=
    (List.perm_cons_erase hl).trans (List.perm_append_singleton _ _).symm
  rw [cascade_perm hperm, cascade_append]
  rfl

/-- Settles O26: with the line of byte `r` taken last, one more remaining byte makes that line act and no other act anew. -/
theorem tailCascadeIsInclusive : Obligations.TailCascadeIsInclusive := by
  refine ⟨cascade_eq_self fun l hl => Nat.zero_lt_of_lt (tailLines_index_lt l hl), fun k r t l hl hindex => ?_,
    tailLines_threshold⟩
  have hthreshold : l.threshold = r + 1 := by rw [tailLines_threshold l hl, hindex]
  have hothers : cascade (tailLines.erase l) k (r + 1) t = cascade (tailLines.erase l) k r t :=
    cascade_succ_of_ne (fun m hm => hthreshold ▸ tailLines_erase_threshold_ne l hl m hm) k t
  rw [cascade_last hl, cascade_last hl, hothers, applyTailLine, applyTailLine, if_pos (by omega), if_neg (by omega), hindex]

end Sys2Proof.Machine
end

section
/-! PROOF. The family of 43_final.md: FINAL, RUN against HASH and against its commands in a row, and the hash in progress under
every step. -/

namespace Sys2Proof.Machine

/-! ## TAIL and FINAL against HASH -/

/-- TAIL takes the loop's triple over all whole blocks of KLEN to HASH's triple before the last MIX (R100, R113). -/
theorem foldTail_acc_eq_hashBeforeMix {s : State} (hcur : s.cursor.toNat = 12 * (s.klen.toNat / 12))
    (hrem : s.rem.toNat = s.klen.toNat % 12) (hacc : s.acc = hashLoop s.byteAt (s.klen.toNat / 12) 0 seeds) :
    (foldTail s).acc = hashBeforeMix s.byteAt s.klen.toNat := by
  have hklen : s.klen = BitVec.ofNat 32 s.klen.toNat := by simp
  calc (foldTail s).acc
      = (List.range s.rem.toNat).foldl (hashTailByte s.byteAt s.cursor.toNat) (s.acc.addTo .c s.klen) :=
        cascade_eq_ascending s.byteAt s.cursor.toNat s.rem.toNat _ (by omega)
    _ = hashBeforeMix s.byteAt s.klen.toNat := by
        rw [hcur, hrem, hacc, hashBeforeMix, addTo_c, ← hklen]

/-- The counters of R25 with fewer than 12 bytes left are the quotient and the remainder of KLEN by 12. -/
theorem counters_of_rem_le {s : State} (h : s.countersOk) (hr : s.rem.toNat ≤ 11) :
    s.cursor.toNat = 12 * (s.klen.toNat / 12) ∧ s.rem.toNat = s.klen.toNat % 12 := by
  obtain ⟨hsum, h12, _⟩ := h
  omega

/-- RUN's TAIL leaves HASH's triple before the last MIX. -/
theorem foldTail_loopEnd_acc (s : State) : (foldTail (loopEnd s)).acc = hashBeforeMix s.byteAt s.len.toNat :=
  foldTail_acc_eq_hashBeforeMix (s := loopEnd s) (loopEnd_cursor_toNat s) (loopEnd_rem_toNat s) rfl

/-- RUN's FINAL leaves HASH's final triple. -/
theorem mix_foldTail_loopEnd_acc (s : State) : mix (foldTail (loopEnd s)).acc = hashTriple s.byteAt s.len.toNat := by
  rw [foldTail_loopEnd_acc, hashTriple]

/-! ## The hash in progress -/

/-- In BODY only the loop's triple is to be shown. -/
theorem hashProgress_of_body {s : State} (hp : s.phase = .body)
    (hacc : s.acc = hashLoop s.byteAt (s.cursor.toNat / 12) 0 seeds) : HashProgress s :=
  ⟨fun _ => hacc, by simp [hp], by simp [hp]⟩

/-- In TAILED only the triple before the last MIX is to be shown. -/
theorem hashProgress_of_tailed {s : State} (hp : s.phase = .tailed) (hacc : s.acc = hashBeforeMix s.byteAt s.klen.toNat) :
    HashProgress s :=
  ⟨by simp [hp], fun _ => hacc, by simp [hp]⟩

/-- FINAL's MIX completes HASH, in the triple and in DIGEST (R110, R113). -/
theorem hashProgress_finishHash {s : State} (hacc : s.acc = hashBeforeMix s.byteAt s.klen.toNat) :
    HashProgress (finishHash s) := by
  have hmix : mix s.acc = hashTriple s.byteAt s.klen.toNat := by rw [hacc, hashTriple]
  exact ⟨nofun, nofun, fun _ => ⟨hmix, congrArg Triple.c hmix⟩⟩

/-- BLOCK adds one round to HASH's loop. -/
theorem HashProgress.foldBlock {s : State} (h : HashProgress s) (hs : Inv s) (hp : s.phase = .body)
    (hr : 12 ≤ s.rem.toNat) : HashProgress (foldBlock s) := by
  obtain ⟨hbody, _, _⟩ := h
  obtain ⟨hsum, h12, _⟩ := hs.counters (.inl hp)
  obtain ⟨hcur, _⟩ := foldBlock_counters hr hsum
  have hrounds : (Machine.foldBlock s).cursor.toNat / 12 = s.cursor.toNat / 12 + 1 := by omega
  have hindex : 0 + 12 * (s.cursor.toNat / 12) = s.cursor.toNat := by omega
  refine hashProgress_of_body hp ?_
  rw [hrounds, foldBlock_byteAt, hashLoop_succ, hindex, ← hbody hp, foldBlock_acc, mix_addBlock]

/-- TAIL ends HASH's loop: what is left of KLEN is less than a block. -/
theorem HashProgress.foldTail {s : State} (h : HashProgress s) (hs : Inv s) (hp : s.phase = .body)
    (hr : s.rem.toNat ≤ 11) : HashProgress (foldTail s) := by
  obtain ⟨hbody, _, _⟩ := h
  obtain ⟨hcur, hrem⟩ := counters_of_rem_le (hs.counters (.inl hp)) hr
  have hrounds : s.cursor.toNat / 12 = s.klen.toNat / 12 := by omega
  exact hashProgress_of_tailed rfl (foldTail_acc_eq_hashBeforeMix hcur hrem (hrounds ▸ hbody hp))

/-- Every command keeps the hash on its way. -/
theorem CommandEffect.hashProgress {s t : State} {i : Instr} (h : CommandEffect s i t) (hs : Inv s)
    (hprog : HashProgress s) : HashProgress t := by
  cases h with
  | ignored _ _ _ => exact hprog
  | sequence _ _ _ _ => exact ⟨nofun, nofun, nofun⟩
  | bounds _ _ => exact ⟨nofun, nofun, nofun⟩
  | init _ => exact hashProgress_of_body rfl (by simp [hashLoop])
  | block hp hr _ => exact hprog.foldBlock hs hp hr
  | tail hp hr _ => exact hprog.foldTail hs hp hr
  | final hp =>
    obtain ⟨_, htailed, _⟩ := hprog
    exact hashProgress_finishHash (htailed hp)
  | run _ => exact hashProgress_finishHash (foldTail_loopEnd_acc s)

/-- A host write to IBUF at or above KLEN reaches no byte of the key, so that HASH's triples stay as they are (R144). -/
theorem HashProgress.pokeByte {s : State} (h : HashProgress s) (hs : Inv s) {i : Nat} (v : Byte)
    (hduty : s.hashing → s.klen.toNat ≤ i) : HashProgress (pokeByte i v s) := by
  obtain ⟨hbody, htailed, hdone⟩ := h
  have hkey (hh : s.hashing) (j : Nat) (hj : j < s.klen.toNat) : s.byteAt j = (Machine.pokeByte i v s).byteAt j := by
    have := hduty hh
    rw [pokeByte_byteAt i v j hs.canonical, if_neg (by omega)]
  refine ⟨fun hp => ?_, fun hp => ?_, fun hp => ?_⟩
  · have hh : s.hashing := .inl hp
    obtain ⟨hsum, _, _⟩ := hs.counters hh
    exact (hbody hp).trans (hashLoop_congr _ _ _ fun j _ _ => hkey hh j (by omega))
  · exact (htailed hp).trans (hashBeforeMix_congr (hkey (.inr (.inl hp))))
  · obtain ⟨hacc, hdig⟩ := hdone hp
    have hk := hkey (.inr (.inr hp))
    exact ⟨hacc.trans (hashTriple_congr hk), hdig.trans (hashFn_congr hk)⟩

/-- Every event of a host that keeps its duty keeps the hash on its way. -/
theorem StepEffect.hashProgress {s t : State} {rest : List HostEvent} {e : HostEvent} (h : StepEffect s rest e t)
    (hs : Inv s) (hprog : HashProgress s) (hduty : keepsKey s e) : HashProgress t := by
  have hprog' : HashProgress (s.withPending rest) := hprog
  cases h with
  | command h => exact h.hashProgress (hs.withPending rest) hprog'
  | illegalIgnored _ _ => exact hprog'
  | illegal _ _ => exact ⟨nofun, nofun, nofun⟩
  | lenWrite => exact hprog'
  | ignoredWrite _ => exact hprog'
  | read _ => exact hprog'
  | poke _ => exact hprog'.pokeByte (hs.withPending rest) _ fun hh => Nat.le_of_add_le_add_left (hduty hh)
  | reset => exact ⟨nofun, nofun, nofun⟩

/-- Settles O51: each effect of a step keeps the progress, and in DONE the progress names DIGEST. -/
theorem everyStepKeepsTheHashOnItsWay : Obligations.EveryStepKeepsTheHashOnItsWay := by
  refine ⟨fun s t e rest hs hprog hp hduty hstep => ?_, fun s hprog hp => ?_⟩
  · exact (stepEffect_of_step hp hstep).hashProgress hs hprog hduty
  · obtain ⟨_, _, hdone⟩ := hprog
    exact (hdone hp).2

/-! ## RUN against HASH and against its commands -/

/-- Settles O28: the accepted case is `performRun_completes`, the refused one BOUNDS. -/
theorem runComputesTheHash : Obligations.RunComputesTheHash := by
  refine ⟨rfl, fun s => ⟨fun hl => ?_, exec_exceeds (.inr rfl)⟩⟩
  rw [exec_run, performRun_completes hl, finishHash, mix_foldTail_loopEnd_acc]
  rfl

/-- What RUN leaves in the registers the host looks at, when LEN fits (R112, R114). -/
theorem exec_run_fits {s : State} (hl : s.len.toNat ≤ s.bufSize) :
    ∃ t, exec .run s = .next t ∧ t.digest = hashFn s.byteAt s.len.toNat ∧ t.phase = .done ∧ t.err = .none ∧
      t.klen = s.len ∧ t.cursor.toNat = 12 * (s.len.toNat / 12) ∧ t.rem.toNat = s.len.toNat % 12 := by
  have hdig : (finishHash (foldTail (loopEnd s))).digest = hashFn s.byteAt s.len.toNat :=
    congrArg Triple.c (mix_foldTail_loopEnd_acc s)
  exact ⟨_, performRun_completes hl, hdig, rfl, rfl, rfl, loopEnd_cursor_toNat s, loopEnd_rem_toNat s⟩

/-- The stepwise hash is the CMD writes of `hashCommands`. -/
theorem stepwiseHash_eq (cfg : Config) (n : Nat) :
    stepwiseHash cfg n = (hashCommands n).map fun i => cmdWrite cfg (encode i) := by
  simp [stepwiseHash, hashCommands]

/-- Commands leave the host's list as it is, so a run over their CMD writes ends where they do. -/
theorem run_stepwiseHash (s : State) :
    Host.Core.run Sys2Proof.core (s.len.toNat / 12 + 3) (s.withPending (stepwiseHash s.cfg s.len.toNat ++ s.pending)) =
      exec .run s := by
  obtain ⟨t, ht⟩ := exec_run_completes s
  obtain ⟨_, _, _, _, _, hpending⟩ := (commandEffect_of_exec ht).frame
  have hrun := run_commands (hashCommands s.len.toNat) s.pending ((execAll_hashCommands s).trans ht)
  rw [← stepwiseHash_eq, hashCommands_length] at hrun
  have hlist : t.withPending s.pending = t := by rw [← hpending, State.withPending_self]
  rw [hlist] at hrun
  exact hrun.trans ht.symm

/-- Settles O29: the commands in a row are RUN by `run_stepwiseHash`, and RUN's two outcomes are known. -/
theorem runEqualsTheCommandsInARow : Obligations.RunEqualsTheCommandsInARow := by
  refine fun s => ⟨run_stepwiseHash s, ?_⟩
  rcases Nat.lt_or_ge s.bufSize s.len.toNat with hl | hl
  · exact ⟨_, exec_exceeds (.inr rfl) hl, fun hfit => absurd hl (Nat.not_lt.2 hfit), fun _ => ⟨rfl, rfl⟩⟩
  · obtain ⟨t, hrun, ht⟩ := exec_run_fits hl
    exact ⟨t, hrun, fun _ => ht, fun hexc => absurd hexc (Nat.not_lt.2 hl)⟩

/-- Settles O33: both digests are HASH, which looks at the key alone. -/
theorem digestDependsOnTheKeyAlone : Obligations.DigestDependsOnTheKeyAlone := by
  intro s u hlen hs hu hkey
  obtain ⟨t, hrunS, hdigS, _⟩ := exec_run_fits hs
  obtain ⟨v, hrunU, hdigU, _⟩ := exec_run_fits hu
  refine ⟨t, v, hrunS, hrunU, ?_, hdigS⟩
  rw [hdigS, hdigU, ← hlen, hashFn_congr hkey]

/-! ## The loop of RUN -/

/-- RUN's loop in two parts. -/
theorem blockLoop_add (m n : Nat) (s : State) : blockLoop (m + n) s = andThen (blockLoop m s) (blockLoop n) := by
  induction m generalizing s with
  | zero => rw [Nat.zero_add, blockLoop_zero, andThen_next]
  | succ m ih =>
    rcases Nat.lt_or_ge s.rem.toNat 12 with hr | hr
    · rw [blockLoop_done _ hr, blockLoop_done _ hr, andThen_next, blockLoop_done _ hr]
    · rw [Nat.add_right_comm, blockLoop, if_pos hr, blockLoop, if_pos hr]
      cases performBlock s with
      | next t => exact ih t
      | fault x => rfl
      | refused x => rfl

/-- Settles O35: the loop is as many BLOCKs in a row, after which fewer than 12 bytes are left and its guard fails. -/
theorem runLoopEnds : Obligations.RunLoopEnds := by
  intro s hs hp
  have hcount := hs.counters (.inl hp)
  have hfits := Nat.mul_div_le s.rem.toNat 12
  obtain ⟨t, hblocks, hphase, _, hcur, hrem⟩ := execAll_blocks_counters (s.rem.toNat / 12) s hp hcount hfits
  rw [execAll_blocks _ s hp hcount hfits] at hblocks
  refine ⟨t, hblocks, hphase, by omega, hcur, fun n hn => ?_⟩
  obtain ⟨k, rfl⟩ := Nat.exists_eq_add_of_le hn
  rw [blockLoop_add, hblocks, andThen_next, blockLoop_done k (by omega)]

/-! ## No step of the block's own -/

/-- Settles O47: by induction on the number of steps, each of them `step_idle`. -/
theorem blockTakesNoStepOfItsOwn : Obligations.BlockTakesNoStepOfItsOwn := by
  intro s k hp
  induction k with
  | zero => rfl
  | succ k ih => rw [run_succ k (step_idle hp), ih]

/-! ## FINAL -/

/-- FINAL out of order: outside FAULT and TAILED (R110). -/
theorem performFinal_outOfOrder {s : State} (hp : s.phase ≠ .fault) (h : s.phase ≠ .tailed) :
    performFinal s = .next (raiseFault .sequence s) :=
  performFinal_sequence hp (Bool.eq_false_iff.2 fun hl => h ((finalLegal_iff s).1 hl))

/-- Settles O27: the accepted, the refused and the ignored case of `performFinal`. -/
theorem finalPublishesTheDigest : Obligations.FinalPublishesTheDigest :=
  ⟨rfl, fun _ hp => performFinal_ok hp, fun _ hp h => performFinal_outOfOrder hp h, fun _ hp => performFinal_fault hp⟩

/-! ## The empty key -/

/-- One MIX of the seeds (R116). -/
theorem mix_seeds : mix seeds = ⟨0x4118d180#32, 0xcd1d0bf5#32, 0xcc88cd5e#32⟩ := by decide

/-- With no key bytes HASH is one MIX of the seeds (R116). -/
theorem hashTriple_zero (k : Nat → Byte) : hashTriple k 0 = mix seeds := rfl

theorem hashFn_zero (k : Nat → Byte) : hashFn k 0 = 0xcc88cd5e#32 := by rw [hashFn, hashTriple_zero, mix_seeds]

/-- Settles O32: HASH of no bytes, which RUN with LEN = 0 computes in a buffer of any size. -/
theorem emptyKeyDigest : Obligations.EmptyKeyDigest := by
  refine ⟨hashFn_zero, mix_seeds, fun s hlen => ?_⟩
  obtain ⟨t, hrun, hdig, hphase, _⟩ := exec_run_fits (s := s) (by simp [hlen])
  exact ⟨t, hrun, by rw [hdig, hlen]; exact hashFn_zero _, hphase⟩

end Sys2Proof.Machine
end

section
/-! PROOF. The family of 60_exceptions.md: what a fault leaves alone, which command or word raises which, in which order the
checks come, and what FAULT ignores and what leaves it. -/

namespace Sys2Proof.Machine

/-! ## CMD writes and the checks of R127 -/

/-- The host's next step writes a word to CMD. -/
theorem step_push_cmdWrite (s : State) (w : Word) : step (s.push (cmdWrite s.cfg w)) = commandWrite w s := by
  rw [step_push, perform_cmdWrite]

/-- A CMD write of a word that decodes is its command (R32). -/
theorem commandWrite_of_decode {w : Word} {i : Instr} (hd : decode w = .ok i) (s : State) :
    commandWrite w s = exec i s := by
  rw [commandWrite, hd]

/-- In FAULT every word but INIT's and RUN's is ignored, be it a command's or illegal (R126). -/
theorem commandWrite_fault {w : Word} {s : State} (hp : s.phase = .fault) (hinit : w ≠ encode .init)
    (hrun : w ≠ encode .run) : commandWrite w s = .next s := by
  rcases commandWrite_cases w s with ⟨i, hw, he⟩ | ⟨_, _, he⟩ | ⟨_, hne, _⟩
  · have hi : i ≠ .init := by rintro rfl; exact hinit hw
    have hr : i ≠ .run := by rintro rfl; exact hrun hw
    rw [he, exec_fault hi hr hp]
  · exact he
  · exact absurd hp hne

/-- Outside FAULT a command that is not legal raises SEQUENCE (R124). -/
theorem exec_outOfOrder {i : Instr} {s : State} (hp : s.phase ≠ .fault) (hl : legal i s = false) :
    exec i s = .next (raiseFault .sequence s) := by
  cases i with
  | init | run => cases hl
  | block => exact performBlock_sequence hp hl
  | tail => exact performTail_sequence hp hl
  | final => exact performFinal_sequence hp hl

/-- A legal command outside FAULT, with a LEN that fits if it is INIT or RUN, raises nothing (R127). -/
theorem CommandEffect.phase_ne_fault {s t : State} {i : Instr} (h : CommandEffect s i t) (hp : s.phase ≠ .fault)
    (hl : legal i s = true) (hfit : i = .init ∨ i = .run → s.len.toNat ≤ s.bufSize) : t.phase ≠ .fault := by
  cases h with
  | ignored | block => exact hp
  | sequence _ _ _ hl' => simp [hl'] at hl
  | bounds hi hexc => exact absurd hexc (Nat.not_lt.2 (hfit hi))
  | init | tail | final | run => simp

/-- Settles O18: a CMD write's step is `commandWrite`, which FAULT ignores. -/
theorem faultPhaseIgnoresAllButInitAndRun : Obligations.FaultPhaseIgnoresAllButInitAndRun := by
  intro s w hp hinit hrun
  rw [step_push_cmdWrite, commandWrite_fault hp hinit hrun]

/-- Settles O19: one lemma for each check. -/
theorem commandChecksComeInOrder : Obligations.CommandChecksComeInOrder := by
  refine fun s w => ⟨commandWrite_fault, fun hp hd => ?_, fun i hp hd hl => ?_, fun hw hexc => ?_,
    fun i t hp hd hl hfit h => ?_⟩
  · cases he : decode w with
    | ok i => exact absurd he (hd i)
    | error e => exact commandWrite_illegal he hp
  · rw [commandWrite_of_decode hd, exec_outOfOrder hp hl]
  · rcases hw with rfl | rfl <;> rw [commandWrite_encode]
    · exact exec_exceeds (.inl rfl) hexc
    · exact exec_exceeds (.inr rfl) hexc
  · rw [commandWrite_of_decode hd] at h
    exact (commandEffect_of_exec h).phase_ne_fault hp hl hfit

/-! ## ILLEGAL_CMD -/

/-- The words of R123 decode to nothing. -/
theorem decode_illegal {w : Word} (h : BitVec.extractLsb' 4 28 w ≠ 0#28 ∨ w.toNat = 0 ∨ 6 ≤ w.toNat ∧ w.toNat ≤ 15) :
    ∃ e, decode w = .error e := by
  rcases h with hrsv | hop
  · exact ⟨_, decode_reservedBits hrsv⟩
  · exact ⟨_, decode_reservedOp (hop.imp_left BitVec.eq_of_toNat_eq)⟩

/-- A word that decodes to nothing is no command's. -/
theorem ne_encode_of_decode {w : Word} {e : DecodeReject} (hd : decode w = .error e) (i : Instr) : w ≠ encode i := by
  rintro rfl
  rw [decode_of_encode] at hd
  cases hd

/-- Settles O15: outside FAULT by `commandWrite_illegal`; in FAULT the word is neither INIT's nor RUN's. -/
theorem illegalWordRaisesIllegalCmd : Obligations.IllegalWordRaisesIllegalCmd := by
  intro s w hw
  obtain ⟨e, hd⟩ := decode_illegal hw
  rw [step_push_cmdWrite]
  exact ⟨commandWrite_illegal hd, fun hp => commandWrite_fault hp (ne_encode_of_decode hd _) (ne_encode_of_decode hd _)⟩

/-! ## BOUNDS, and reads past the buffer -/

/-- Settles O17: `exec_exceeds`, whose state is written out here, and that no command stops under the invariant. -/
theorem boundsRaisedByInitAndRun : Obligations.BoundsRaisedByInitAndRun := by
  refine ⟨fun s hl => ⟨exec_exceeds (.inl rfl) hl, exec_exceeds (.inr rfl) hl⟩, fun s i hs => ?_⟩
  obtain ⟨t, ht⟩ := hs.exec_completes i
  rw [ht]
  nofun

/-- Settles O54: BLOCK and TAIL past the buffer's end. -/
theorem readsPastTheBufferStop : Obligations.ReadsPastTheBufferStop :=
  ⟨fun _ hp hr hb => performBlock_pastEnd hp hr hb, fun _ hp h1 hr hb => performTail_pastEnd hp h1 hr hb⟩

/-! ## INIT and RUN from any phase -/

/-- With a LEN that fits INIT reaches BODY and RUN reaches DONE, whatever PHASE and ERR were (R124, R130). -/
theorem exec_init_run_fits {s : State} (hl : s.len.toNat ≤ s.bufSize) :
    ∃ t u, exec .init s = .next t ∧ t.phase = .body ∧ t.err = .none ∧
      exec .run s = .next u ∧ u.phase = .done ∧ u.err = .none :=
  ⟨_, _, congrArg Host.Outcome.next (performInit_fits hl), rfl, rfl, performRun_completes hl, rfl, rfl⟩

/-- With a LEN that does not fit both end in FAULT with BOUNDS, whatever PHASE and ERR were (R125, R130). -/
theorem exec_init_run_exceeds {s : State} (hl : s.bufSize < s.len.toNat) :
    ∃ t u, exec .init s = .next t ∧ t.phase = .fault ∧ t.err = .bounds ∧
      exec .run s = .next u ∧ u.phase = .fault ∧ u.err = .bounds :=
  ⟨_, _, exec_exceeds (.inl rfl) hl, rfl, rfl, exec_exceeds (.inr rfl) hl, rfl, rfl⟩

/-! ## The table of R124 -/

/-- Out of BODY and TAILED, none of BLOCK, TAIL and FINAL is legal. -/
theorem exec_sequence_outside {s : State} (hfault : s.phase ≠ .fault) (hbody : s.phase ≠ .body) (htailed : s.phase ≠ .tailed) :
    ∀ i ∈ [Instr.block, .tail, .final], exec i s = .next (raiseFault .sequence s) := by
  simp only [List.forall_mem_cons]
  exact ⟨performBlock_outOfOrder hfault (.inl hbody), performTail_outOfOrder hfault (.inl hbody),
    performFinal_outOfOrder hfault htailed, nofun⟩

/-- In BODY a BLOCK is accepted while twelve bytes remain (R52, R124). -/
theorem Inv.exec_block {s : State} (h : Inv s) (hp : s.phase = .body) (hr : 12 ≤ s.rem.toNat) :
    exec .block s = .next (Machine.foldBlock s) := by
  obtain ⟨hend, hk⟩ := h.block_inside hp hr
  exact performBlock_ok hp hr (hend.trans hk)

/-- In BODY a TAIL is accepted once fewer remain (R52, R124). -/
theorem Inv.exec_tail {s : State} (h : Inv s) (hp : s.phase = .body) (hr : s.rem.toNat ≤ 11) :
    exec .tail s = .next (Machine.foldTail s) := by
  obtain ⟨hend, hk⟩ := h.tail_inside hp
  exact performTail_ok hp hr (.inr (hend.trans_le hk))

/-- Settles O16: the cells of BLOCK, TAIL and FINAL row by row, then the ok ones, then INIT and RUN by whether LEN fits. -/
theorem sequenceTable : Obligations.SequenceTable := by
  refine ⟨fun s => ?_, fun s hs => ?_, fun s => ?_⟩
  · refine ⟨fun hp => exec_sequence_outside (by simp [hp]) (by simp [hp]) (by simp [hp]), fun hp hr => ?_, fun hp hr => ?_,
      fun hp => ?_, fun hp => exec_sequence_outside (by simp [hp]) (by simp [hp]) (by simp [hp]), fun hp => ?_⟩ <;>
      simp only [List.forall_mem_cons]
    · exact ⟨performTail_outOfOrder (by simp [hp]) (.inr hr), performFinal_outOfOrder (by simp [hp]) (by simp [hp]), nofun⟩
    · exact ⟨performBlock_outOfOrder (by simp [hp]) (.inr (Nat.lt_succ_of_le hr)),
        performFinal_outOfOrder (by simp [hp]) (by simp [hp]), nofun⟩
    · exact ⟨performBlock_outOfOrder (by simp [hp]) (by simp [hp]), performTail_outOfOrder (by simp [hp]) (by simp [hp]),
        nofun⟩
    · exact ⟨performBlock_fault hp, performTail_fault hp, performFinal_fault hp, nofun⟩
  · exact ⟨fun hp hr => ⟨_, hs.exec_block hp hr, hp, hs.err_none (by simp [hp])⟩,
      fun hp hr => ⟨_, hs.exec_tail hp hr, rfl, hs.err_none (by simp [hp])⟩,
      fun hp => ⟨_, performFinal_ok hp, rfl, hs.err_none (by simp [hp])⟩⟩
  · rcases Nat.lt_or_ge s.bufSize s.len.toNat with hl | hl
    · obtain ⟨t, u, ht, _, hterr, hu, _, huerr⟩ := exec_init_run_exceeds hl
      exact ⟨t, u, ht, hu, by simp [hterr], by simp [huerr], fun hfit => absurd hl (Nat.not_lt.2 hfit)⟩
    · obtain ⟨t, u, ht, htphase, hterr, hu, huphase, huerr⟩ := exec_init_run_fits hl
      exact ⟨t, u, ht, hu, by simp [hterr], by simp [huerr], fun _ => ⟨htphase, huphase⟩⟩

/-! ## A fault is precise -/

/-- The fault action changes PHASE, ERR and the model's mark alone (R122; log 4). -/
theorem raiseFault_frame (code : Err) (s : State) :
    { raiseFault code s with phase := s.phase, err := s.err, faultMark := s.faultMark } = s := rfl

/-- A command that ends in FAULT changes no more than the fault action does (R122). -/
theorem CommandEffect.fault_frame {s t : State} {i : Instr} (h : CommandEffect s i t) (ht : t.phase = .fault) :
    { t with phase := s.phase, err := s.err, faultMark := s.faultMark } = s := by
  cases h with
  | ignored | sequence | bounds => rfl
  | block hp => exact absurd (hp.symm.trans ht) nofun
  | init | tail | final | run => cases ht

/-- Legality looks at no byte of IBUF. -/
theorem legal_withIbuf (i : Instr) (s : State) (m : Memory) : legal i (s.withIbuf m) = legal i s := by
  cases i <;> rfl

/-- A command that ends in FAULT does so whatever IBUF holds: each check it fails looks at no byte (R122). -/
theorem CommandEffect.fault_withIbuf {s t : State} {i : Instr} (h : CommandEffect s i t) (ht : t.phase = .fault)
    (m : Memory) : exec i (s.withIbuf m) = .next (t.withIbuf m) := by
  cases h with
  | ignored hinit hrun hp => exact exec_fault hinit hrun hp
  | sequence _ _ hp hl => exact exec_outOfOrder (s := s.withIbuf m) hp (by rw [legal_withIbuf, hl])
  | bounds hi hl => exact exec_exceeds (s := s.withIbuf m) hi hl
  | block hp => exact absurd (hp.symm.trans ht) nofun
  | init | tail | final | run => cases ht

/-- Settles O14: the fault action field by field, and the commands by their effects. -/
theorem faultsArePrecise : Obligations.FaultsArePrecise := by
  refine ⟨fun code s => ⟨rfl, fun hs => if_pos hs, fun hs => if_neg hs, raiseFault_frame code s⟩, fun i s t h => ?_⟩
  have heff := commandEffect_of_exec h
  exact ⟨fun ht => ⟨heff.fault_frame ht, heff.fault_withIbuf ht⟩, heff.err_agrees⟩

/-! ## Leaving FAULT -/

/-- Only INIT and RUN take a command out of FAULT (R130). -/
theorem CommandEffect.leaves_fault {s t : State} {i : Instr} (h : CommandEffect s i t) (hs : s.phase = .fault)
    (ht : t.phase ≠ .fault) : i = .init ∨ i = .run := by
  cases h with
  | ignored => exact absurd hs ht
  | sequence => exact absurd rfl ht
  | bounds hi => exact hi
  | init => exact .inl rfl
  | block hp | tail hp | final hp => exact absurd (hp.symm.trans hs) nofun
  | run => exact .inr rfl

/-- Only reset, INIT and RUN take a step out of FAULT (R130). -/
theorem StepEffect.leaves_fault {s t : State} {rest : List HostEvent} {e : HostEvent} (h : StepEffect s rest e t)
    (hs : s.phase = .fault) (ht : t.phase ≠ .fault) :
    e = .reset ∨ e = cmdWrite s.cfg (encode .init) ∨ e = cmdWrite s.cfg (encode .run) := by
  cases h with
  | command h => exact .inr ((h.leaves_fault hs ht).imp (cmdWrite_congr s.cfg) (cmdWrite_congr s.cfg))
  | reset => exact .inl rfl
  | illegal => exact absurd rfl ht
  | illegalIgnored | lenWrite | ignoredWrite | read | poke => exact absurd hs ht

/-- Settles O20: the step's effects, then INIT and RUN by whether LEN fits, reset, and the words FAULT ignores. -/
theorem faultIsLeftByInitRunOrReset : Obligations.FaultIsLeftByInitRunOrReset :=
  ⟨fun _ _ _ _ hp h => (stepEffect_of_step hp h).leaves_fault,
    fun s hs => ⟨exec_init_run_fits, exec_init_run_exceeds, ⟨resetBlock s, rfl, rfl, rfl⟩, fun _ => commandWrite_fault hs⟩⟩

/-! ## The mark -/

/-- No command clears the mark (log 4). -/
theorem CommandEffect.faultMark_kept {s t : State} {i : Instr} (h : CommandEffect s i t) (hs : s.faultMark = true) :
    t.faultMark = true := by
  cases h with
  | ignored | init | block | tail | final | run => exact hs
  | sequence | bounds => rfl

/-- No event clears the mark (log 4). -/
theorem StepEffect.faultMark_kept {s t : State} {rest : List HostEvent} {e : HostEvent} (h : StepEffect s rest e t)
    (hs : s.faultMark = true) : t.faultMark = true := by
  cases h with
  | command h => exact h.faultMark_kept hs
  | illegal => rfl
  | illegalIgnored | lenWrite | ignoredWrite | read | poke | reset => exact hs

/-- A step that enters FAULT sets the mark (D13; log 4). -/
theorem StepEffect.faultMark_set {s t : State} {rest : List HostEvent} {e : HostEvent} (h : StepEffect s rest e t)
    (ht : t.phase = .fault) (hs : s.phase ≠ .fault) : t.faultMark = true := by
  obtain ⟨_, _, _, _, hfault⟩ := h.phase_entered (by rw [ht]; exact hs.symm)
  exact (hfault ht).2

/-- Settles O53: the step's effects; with nothing pending the state stays as it is. -/
theorem faultMarkIsSticky : Obligations.FaultMarkIsSticky := by
  intro s t h
  cases hp : s.pending with
  | nil =>
    rw [step_idle hp] at h
    cases h
    exact ⟨id, fun ht hs => absurd ht hs⟩
  | cons e rest =>
    have heff := stepEffect_of_step hp h
    exact ⟨heff.faultMark_kept, heff.faultMark_set⟩

end Sys2Proof.Machine
end

section
/-! PROOF. The family of 70_reset_and_hazards.md: the boot order of the host, and a LEN write during a hash. -/

namespace Sys2Proof.Machine

/-! ## Bytes in a row into IBUF -/

/-- The memory after the host has written `bytes` from index `i` on, in order (R66). -/
def Memory.writeAll : Memory → Nat → List Byte → Memory
  | m, _, [] => m
  | m, i, b :: bs => Memory.writeAll (Memory.write m i b) (i + 1) bs

/-- Bytes written in a row, read back: below the first index and past the last byte everything is as before. -/
theorem Memory.read_writeAll (bytes : List Byte) : ∀ {m : Memory} (i x : Nat), Memory.wf m = true →
    Memory.read (Memory.writeAll m i bytes) x =
      if x < i then Memory.read m x else bytes.getD (x - i) (Memory.read m x) := by
  induction bytes with
  | nil => intro m i x _; simp [Memory.writeAll]
  | cons b bs ih =>
    intro m i x hwf
    rw [Memory.writeAll, ih (i + 1) x (Memory.write_wf i b hwf), Memory.read_write i b x hwf]
    rcases Nat.lt_trichotomy x i with hlt | rfl | hgt
    · rw [if_pos (by omega), if_neg (by omega), if_pos hlt]
    · simp
    · obtain ⟨k, rfl⟩ := Nat.exists_eq_add_of_lt hgt
      rw [if_neg (by omega), if_neg (by omega), if_neg (by omega), Nat.add_sub_add_right, Nat.add_assoc,
        Nat.add_sub_cancel_left, Nat.add_sub_cancel_left, List.getD_cons_succ]

/-- A `WB` line that stays inside IBUF is one step a byte and changes IBUF alone (R41, R66; log 15). -/
theorem run_ibufWrites (bytes : List Byte) (rest : List HostEvent) : ∀ (s : State) (i : Nat), i + bytes.length ≤ s.bufSize →
    Host.Core.run Sys2Proof.core bytes.length (s.withPending (ibufWrites s.cfg i bytes ++ rest)) =
      .next ((s.withIbuf (Memory.writeAll s.ibuf i bytes)).withPending rest) := by
  induction bytes with
  | nil => intro s i _; rfl
  | cons b bs ih =>
    intro s i hfit
    rw [List.length_cons] at hfit
    have hstep : step (s.withPending (ibufWrites s.cfg i (b :: bs) ++ rest)) =
        .next ((pokeByte i b s).withPending (ibufWrites s.cfg (i + 1) bs ++ rest)) :=
      step_writeIbuf (s.withPending (ibufWrites s.cfg (i + 1) bs ++ rest)) b (show i < s.bufSize by omega)
    exact (run_succ _ hstep).trans (ih (pokeByte i b s) (i + 1) (by rw [pokeByte_bufSize]; omega))

/-! ## The boot order -/

/-- The state with another LEN. -/
def State.withLen (s : State) (v : Word) : State := { s with len := v }

/-- A host write to LEN changes LEN alone (R31). -/
theorem step_writeLen (s : State) (v : Word) :
    step (s.push (.writeReg 32 (s.cfg.regBase + 0x04) v)) = .next (s.withLen v) :=
  step_writeReg s v (by decide) (by decide)

/-- A LEN write at the head of the host's list (R31, R53). -/
theorem step_pendingWriteLen (s : State) (v : Word) (rest : List HostEvent) :
    step (s.withPending (.writeReg 32 (s.cfg.regBase + 0x04) v :: rest)) = .next ((s.withLen v).withPending rest) :=
  step_writeLen (s.withPending rest) v

/-- STATUS at the end of a hash: DONE, no error (R28, R29). -/
theorem status_done {s : State} (hp : s.phase = .done) (he : s.err = .none) : s.status = 0x00000003#32 := by
  rw [State.status, hp, he]
  rfl

/-- After a hash the host reads STATUS and then DIGEST (R136, R143). -/
theorem run_readStatusDigest {s : State} {rest : List HostEvent} (hp : s.phase = .done) (he : s.err = .none) :
    Host.Core.run Sys2Proof.core 2
      (s.withPending (.readReg 32 (s.cfg.regBase + 0x08) :: .readReg 32 (s.cfg.regBase + 0x0C) :: rest)) =
      .next (reply (.word s.digest) (reply (.word 0x00000003#32) (s.withPending rest))) := by
  have hstatus := step_readReg (s.withPending (.readReg 32 (s.cfg.regBase + 0x0C) :: rest)) (off := 0x08) (by decide)
    (by decide)
  have hdigest := step_readReg (reply (.word 0x00000003#32) (s.withPending rest)) (off := 0x0C) (by decide) (by decide)
  rw [← status_done hp he] at hdigest ⊢
  exact (run_succ 1 hstatus).trans (run_succ 0 hdigest)

/-- The accesses of the boot order, the key's bytes first. -/
theorem programEvents_bootProgram (cfg : Config) (key : List Byte) :
    programEvents cfg (bootProgram key) = ibufWrites cfg 0 key ++
      [.writeReg 32 (cfg.regBase + 0x04) (BitVec.ofNat 32 key.length), cmdWrite cfg (encode .run),
        .readReg 32 (cfg.regBase + 0x08), .readReg 32 (cfg.regBase + 0x0C)] := rfl

/-- The state in which RUN finds the block in the boot order: the key in IBUF, its length in LEN. -/
def State.withKey (s : State) (key : List Byte) : State :=
  (s.withIbuf (Memory.writeAll s.ibuf 0 key)).withLen (BitVec.ofNat 32 key.length)

theorem withKey_len_toNat {key : List Byte} (s : State) (h : key.length < 2 ^ 32) :
    (s.withKey key).len.toNat = key.length := Nat.mod_eq_of_lt h

/-- The key's bytes are where the hash looks for them. -/
theorem withKey_byteAt {s : State} {key : List Byte} {x : Nat} (hwf : Memory.wf s.ibuf = true) (hx : x < key.length) :
    (s.withKey key).byteAt x = key.getD x 0 := by
  calc (s.withKey key).byteAt x = key.getD x (Memory.read s.ibuf x) := Memory.read_writeAll key 0 x hwf
    _ = key.getD x 0 := by rw [List.getD_eq_getElem _ _ hx, List.getD_eq_getElem _ _ hx]

/-- What the boot order leaves: the state RUN makes of the key, with STATUS and DIGEST as the last two replies (R143). -/
theorem run_bootProgram {s t : State} {key : List Byte} (hfit : key.length ≤ s.bufSize)
    (hexec : exec .run (s.withKey key) = .next t) (hp : t.phase = .done) (he : t.err = .none) :
    Host.Core.run Sys2Proof.core (key.length + 4)
      (s.withPending (programEvents s.cfg (bootProgram key) ++ s.pending)) =
      .next (reply (.word t.digest) (reply (.word 0x00000003#32) (t.withPending s.pending))) := by
  have hcfg : t.cfg = s.cfg := (exec_cfg hexec).trans rfl
  have hread := run_readStatusDigest (rest := s.pending) hp he
  have hrun := run_commands [.run] (.readReg 32 (s.cfg.regBase + 0x08) :: .readReg 32 (s.cfg.regBase + 0x0C) :: s.pending)
    ((congrFun (execAll_singleton .run) _).trans hexec)
  rw [hcfg] at hread
  rw [programEvents_bootProgram, List.append_assoc]
  exact (run_add 4 (run_ibufWrites key _ s 0 (by omega))).trans
    ((run_succ 3 (step_pendingWriteLen (s.withIbuf _) _ _)).trans ((run_add 2 hrun).trans hread))

/-- Settles O31: RUN completes on the key that `withKey` holds with its HASH as the digest, and `run_bootProgram` leads there. -/
theorem bootOrderGivesTheDigest : Obligations.BootOrderGivesTheDigest := by
  intro s key hwf hfit hlt
  have hlen := withKey_len_toNat s hlt
  obtain ⟨t, hexec, hdigest, hphase, herr, _⟩ := exec_run_fits (s := s.withKey key) (hlen.trans_le hfit)
  have hhash : t.digest = hashFn (fun i => key.getD i 0) key.length := by
    rw [hdigest, hlen, hashFn_congr fun x hx => withKey_byteAt hwf hx]
  have hreplies : t.replies = s.replies := (commandEffect_of_exec hexec).ibuf_kept.2
  refine ⟨_, run_bootProgram hfit hexec hphase herr, rfl, ?_⟩
  rw [reply_replies, reply_replies, State.withPending_replies, hhash, hreplies]

/-! ## LEN after INIT -/

/-- BLOCK does not look at LEN (R92, R145). -/
theorem performBlock_withLen (s : State) (v : Word) :
    performBlock (s.withLen v) = mapNext (·.withLen v) (performBlock s) := by
  rcases performBlock_cases s with ⟨hp, he⟩ | ⟨hp, hl, he⟩ | ⟨hp, hr, hb, he⟩ | ⟨hp, hr, hb, he⟩ <;> rw [he]
  · exact performBlock_fault (s := s.withLen v) hp
  · exact performBlock_sequence (s := s.withLen v) hp hl
  · exact performBlock_ok (s := s.withLen v) hp hr hb
  · exact performBlock_pastEnd (s := s.withLen v) hp hr hb

/-- TAIL folds KLEN and does not look at LEN (R100, R145). -/
theorem performTail_withLen (s : State) (v : Word) :
    performTail (s.withLen v) = mapNext (·.withLen v) (performTail s) := by
  rcases performTail_cases s with ⟨hp, he⟩ | ⟨hp, hl, he⟩ | ⟨hp, hr, hb, he⟩ | ⟨hp, h1, hr, hb, he⟩ <;> rw [he]
  · exact performTail_fault (s := s.withLen v) hp
  · exact performTail_sequence (s := s.withLen v) hp hl
  · exact performTail_ok (s := s.withLen v) hp hr hb
  · exact performTail_pastEnd (s := s.withLen v) hp h1 hr hb

/-- FINAL does not look at LEN (R110, R145). -/
theorem performFinal_withLen (s : State) (v : Word) :
    performFinal (s.withLen v) = mapNext (·.withLen v) (performFinal s) := by
  rcases performFinal_cases s with ⟨hp, he⟩ | ⟨hp, hl, he⟩ | ⟨hp, he⟩ <;> rw [he]
  · exact performFinal_fault (s := s.withLen v) hp
  · exact performFinal_sequence (s := s.withLen v) hp hl
  · exact performFinal_ok (s := s.withLen v) hp

/-- An INIT that ends in BODY was accepted, and has latched LEN (R90, R91). -/
theorem init_latches_len {s t : State} (h : exec .init s = .next t) (hp : t.phase = .body) : t.klen = s.len ∧ t.rem = s.len := by
  cases commandEffect_of_exec h with
  | init => exact ⟨rfl, rfl⟩
  | bounds => cases hp
  | ignored hinit | sequence hinit => exact absurd rfl hinit

/-- Settles O40: INIT by its effects, the three commands after it by their cases, and the LEN write as a step. -/
theorem lenWriteDoesNotReachTheHash : Obligations.LenWriteDoesNotReachTheHash := by
  refine ⟨fun s t => init_latches_len, fun i s v hi => ?_, step_writeLen⟩
  rcases hi with rfl | rfl | rfl
  · exact performBlock_withLen s v
  · exact performTail_withLen s v
  · exact performFinal_withLen s v

end Sys2Proof.Machine
end
